-- ==== Sys2Proof/Word.lean ====
section
/-! DEFINITION. The words of the machine (spec/00_scope.md R7): a byte is 8 bits, a register and the
program counter are 32 bits. -/

namespace Sys2Proof

/-- A u8 of the spec (R7). -/
abbrev Byte := BitVec 8

/-- A u32 of the spec (R7): what a register and the program counter hold. -/
abbrev Word := BitVec 32

end Sys2Proof
end

