-- ==== Sys2Proof/Syntax.lean ====
section
/-! DEFINITION. The instructions of CORE, one constructor per row of spec/opcode_table.json. -/

namespace Sys2Proof

/-- The eight general registers in the order of the spec's enumeration: accumulator, counter, data, base,
stack-pointer, base-pointer, source-index, destination-index (spec/10_state.md R11). Only the names eax
and ebx are the source's; the other six are the spec's choice (D14, PRESUMED there, log 8) and carry no
semantics. -/
inductive Reg where
  | eax
  | ecx
  | edx
  | ebx
  | esp
  | ebp
  | esi
  | edi
  deriving DecidableEq, Repr

/-- An instruction with its operands. -/
inductive Instr where
  /-- Move-immediate-to-register, opcodes 0xB8 to 0xBF (R80): the destination and the 32-bit immediate. -/
  | mov (r : Reg) (imm : Word)
  /-- Short jump, opcode 0xEB (R85): the raw displacement byte, read as a signed number by the meaning. -/
  | jmp (d : Byte)
  /-- The table's default row: an opcode byte that has no handler (R57). -/
  | absent (op : Byte)
  deriving DecidableEq, Repr

end Sys2Proof
end

