-- ==== Sys2Proof/WellFormed.lean ====
section
/-! DEFINITION. Which terms of `Instr` are instructions of the hardware. -/

namespace Sys2Proof

/-- The match/mask form of the opcode map (spec/30_encoding.md R56): the opcode byte has a handler. Stated
without the handler table, so that the table can be compared with it. -/
def opcodeImplemented (op : Byte) : Bool :=
  op &&& 0xF8#8 == 0xB8#8 || op == 0xEB#8

/-- Every register, every immediate (R53) and every displacement byte (R54) is legal, so `mov` and `jmp`
are always well formed; `absent op` is well formed exactly when `op` is one of the 247 opcode bytes that
have no handler (R57). -/
def WellFormed (i : Instr) : Bool :=
  match i with
  | .mov _ _ => true
  | .jmp _ => true
  | .absent op => !opcodeImplemented op

end Sys2Proof
end

