-- ==== Sys2Proof/Decode.lean ====
section
/-! DEFINITION. The Byte Decoder's assembly of values (spec/20_memory.md R32 to R34), the Instruction
Handler Table (spec/30_encoding.md R56, R60), the instruction decoder and, after it, the encoder. -/

namespace Sys2Proof

/-! ## Values assembled from bytes -/

/-- `sext_32(b)`: `b` if `b < 128`, else `b - 256`, an integer not yet reduced to 32 bits (R7). -/
def sext32 (b : Byte) : Int :=
  if b.toNat < 128 then (b.toNat : Int) else (b.toNat : Int) - 256

/-- Four bytes assembled little-endian, byte 0 least significant:
`b0 | (b1<<8) | (b2<<16) | (b3<<24)` (R34). -/
def le32 (b0 b1 b2 b3 : Byte) : Word :=
  b0.setWidth 32 ||| (b1.setWidth 32 <<< 8) ||| (b2.setWidth 32 <<< 16) ||| (b3.setWidth 32 <<< 24)

/-- Byte `k` of a word, `k = 0` the least significant one (R51: i0 holds immediate bits 7:0, and so on). -/
def byteOfWord (v : Word) (k : Nat) : Byte :=
  v.extractLsb' (8 * k) 8

/-! The three reads over any source of bytes: `byte k` is the byte at offset `k`, `none` where there is
none. The machine's source is its memory seen from the program counter (`Machine.readU8`); a list of bytes
is another. -/

/-- `read_i8(off)`: the byte at `off` reinterpreted as a signed 8-bit value (R33). -/
def i8From (byte : Nat → Option Byte) (off : Nat) : Option Int :=
  (byte off).map sext32

/-- `read_u32(off)`: four consecutive bytes from `off`, little-endian; no value unless all four bytes are
there (R34, R36). -/
def u32From (byte : Nat → Option Byte) (off : Nat) : Option Word :=
  match byte off, byte (off + 1), byte (off + 2), byte (off + 3) with
  | some b0, some b1, some b2, some b3 => some (le32 b0 b1 b2 b3)
  | _, _, _, _ => none

/-! ## The Instruction Handler Table -/

/-- An entry of the table: a handler, or the explicit marker that there is none (R20). -/
inductive Handler where
  | absent
  | mov
  | jmp
  deriving DecidableEq, Repr

/-- A total map from the 256 opcode bytes to entries (R5: TABLE). Configuration, not state (R20). -/
abbrev HandlerTable := Byte → Handler

/-- "Initialization populates all 256 entries to 'absent'" (R56). -/
def emptyTable : HandlerTable := fun _ => .absent

/-- `register(opcode, handler)`: binds a handler to an opcode value; the last write wins (R60). Used only
while the table is built. -/
def registerHandler (t : HandlerTable) (op : Byte) (h : Handler) : HandlerTable :=
  fun o => if o = op then h else t o

/-- The registrations of this hardware: "opcodes 0xB8–0xBF → move-immediate handler; 0xEB → short-jump
handler" (R56). -/
def registrations : List (Byte × Handler) :=
  [(0xB8#8, .mov), (0xB9#8, .mov), (0xBA#8, .mov), (0xBB#8, .mov),
   (0xBC#8, .mov), (0xBD#8, .mov), (0xBE#8, .mov), (0xBF#8, .mov), (0xEB#8, .jmp)]

/-- TABLE, built once before execution: all entries absent, then the registrations in order
(R56, R120 point 1); constant for this hardware (D7). -/
def handlerTable : HandlerTable :=
  registrations.foldl (fun t b => registerHandler t b.1 b.2) emptyTable

/-- `lookup(opcode)`: the entry bound to the opcode, a pure function of the opcode byte (R60). -/
def lookupHandler (op : Byte) : Handler := handlerTable op

/-- How many bytes from the program counter a handler reads, its opcode included: 5 for format OI, 2 for
format J8 (R59); for an absent opcode only the opcode byte is read (R68). -/
def handlerLength (h : Handler) : Nat :=
  match h with
  | .mov => 5
  | .jmp => 2
  | .absent => 1

/-! ## The register field -/

/-- The register with a 3-bit code (R11). -/
def regOfCode (c : BitVec 3) : Reg :=
  match c.toNat with
  | 0 => .eax
  | 1 => .ecx
  | 2 => .edx
  | 3 => .ebx
  | 4 => .esp
  | 5 => .ebp
  | 6 => .esi
  | _ => .edi

/-- The 3-bit code of a register (R11). -/
def regCode (r : Reg) : BitVec 3 :=
  match r with
  | .eax => 0
  | .ecx => 1
  | .edx => 2
  | .ebx => 3
  | .esp => 4
  | .ebp => 5
  | .esi => 6
  | .edi => 7

/-- The index of a register in the register file, 0 to 7 (R11). -/
def regIndex (r : Reg) : Nat := (regCode r).toNat

/-- "the low 3 bits of the opcode select the destination register" (R55). -/
def regOfOpcode (op : Byte) : Reg := regOfCode (op.extractLsb' 0 3)

/-! ## Decoding -/

/-- Why a byte source gives no instruction. Both are a lack of bytes: with enough bytes every opcode byte
decodes (R56 is total and operand bytes are unconstrained, R58). -/
inductive DecodeError where
  /-- there is no byte where the opcode should be -/
  | noOpcode
  /-- an operand byte of the opcode `op` is missing -/
  | operandMissing (op : Byte)
  deriving DecidableEq, Repr

/-- Decode at offset 0 of a byte source: exactly one byte selects the handler (R50), then the operands
that handler needs are read at the offsets of formats OI (R51) and J8 (R52). -/
def decodeFrom (byte : Nat → Option Byte) : Except DecodeError Instr :=
  match byte 0 with
  | none => .error .noOpcode
  | some op =>
    match lookupHandler op with
    | .absent => .ok (.absent op)
    | .mov =>
      match u32From byte 1 with
      | none => .error (.operandMissing op)
      | some imm => .ok (.mov (regOfOpcode op) imm)
    | .jmp =>
      match byte 1 with
      | none => .error (.operandMissing op)
      | some d => .ok (.jmp d)

/-- The table entry an instruction belongs to. -/
def handlerOf (i : Instr) : Handler :=
  match i with
  | .mov _ _ => .mov
  | .jmp _ => .jmp
  | .absent _ => .absent

/-- How many bytes of a byte list the decoder consumes for an instruction: its length (R59), and one, the
opcode byte, for an opcode without a handler, whose length the spec leaves undefined (log 6). -/
def instrLength (i : Instr) : Nat := handlerLength (handlerOf i)

/-- The decoder on a list of bytes in ascending address order: the instruction at its head and the bytes
that follow it. -/
def decode (bs : List Byte) : Except DecodeError (Instr × List Byte) :=
  match decodeFrom (fun k => bs[k]?) with
  | .error e => .error e
  | .ok i => .ok (i, bs.drop (instrLength i))

/-! ## Encoding -/

/-- The opcode byte of format OI: `10111rrr` (R51). -/
def movOpcode (r : Reg) : Byte := 0b10111#5 ++ regCode r

/-- The bytes of an instruction in ascending address order (R51, R52): `B8+r i0 i1 i2 i3`, `EB d`, and the
opcode byte alone where there is no handler. -/
def encode (i : Instr) : List Byte :=
  match i with
  | .mov r imm => [movOpcode r, byteOfWord imm 0, byteOfWord imm 1, byteOfWord imm 2, byteOfWord imm 3]
  | .jmp d => [0xEB#8, d]
  | .absent op => [op]

/-! ## The opcode table's numbering of an instruction's bits -/

/-- The bytes of an instruction whose bits are the low `nbits` of `w`, bit 0 the least significant bit of
the first byte, padded with zero bytes to the longest instruction (5 bytes, R50). -/
def tableWordBytes (nbits w : Nat) : List Byte :=
  let v := w % 2 ^ nbits
  [BitVec.ofNat 8 v, BitVec.ofNat 8 (v / 2 ^ 8), BitVec.ofNat 8 (v / 2 ^ 16), BitVec.ofNat 8 (v / 2 ^ 24),
   BitVec.ofNat 8 (v / 2 ^ 32)]

/-- The instruction the decoder reads from those bytes. -/
def decodeTableWord (nbits w : Nat) : Option Instr :=
  match decode (tableWordBytes nbits w) with
  | .error _ => none
  | .ok (i, _) => some i

end Sys2Proof
end

