-- ==== Sys2Proof/Config.lean ====
section
/-! DEFINITION. The creation parameters of CORE (spec/00_scope.md R5). They are configuration, not state:
reset consumes them. The handler table, the remaining parameter of R5, is the constant
`Sys2Proof.handlerTable` of Decode.lean (D7). -/

namespace Sys2Proof.Config

/-- "Creation parameters: memory size (bytes), initial instruction-pointer value, initial stack-pointer
register value" and the image with its maximum (R5). -/
structure Params where
  /-- MEMSIZE, the memory size in bytes; its domain is 0..2^32 (D2), see `Params.wf`. -/
  memSize : Nat
  /-- INIT_IP, the initial instruction pointer: any u32 (D9). -/
  initIp : Word
  /-- INIT_SP, the initial value of the stack-pointer register: any u32 (D9). -/
  initSp : Word
  /-- IMAGE, the bytes the image loader supplies, of arbitrary length. -/
  image : List Byte
  /-- IMAGE_MAX, how many bytes of the image are copied at most. -/
  imageMax : Nat
  deriving DecidableEq, Repr

/-- The largest legal MEMSIZE: a 32-bit program counter reaches no byte at 2^32 or above (D2). -/
abbrev addressSpace : Nat := 4294967296

/-- The parameters lie in the domain the spec gives them (R5, D2); only MEMSIZE has a bound. -/
abbrev Params.wf (p : Params) : Prop := p.memSize ≤ addressSpace

/-- The reference values of R5: MEMSIZE = 1024 * 1024 and IMAGE_MAX = 512.
DESIGN CHOICE, unsafe (log 2): the spec gives INIT_IP, INIT_SP and IMAGE no reference value; the model
takes 0, 0 and the empty image. -/
def reference : Params :=
  { memSize := 1048576, initIp := 0, initSp := 0, image := [], imageMax := 512 }

end Sys2Proof.Config
end

