-- ==== Sys2Proof/Machine/Memory.lean ====
section
/-! DEFINITION. The flat byte memory (spec/10_state.md R16, spec/20_memory.md R30): its data, its one
read, the write that reset's image load uses, and its canonical form. -/

namespace Sys2Proof.Machine

/-- What an address that no cell lists reads as: zero, the spec's value for every byte the image does not
reach ("bytes beyond the supplied image at addresses within memory size remain zero", R22, R121). -/
def unlistedByte : Byte := 0

/-- `MEMSIZE` bytes at addresses 0 to MEMSIZE-1 (R16), held sparsely: the size, which never changes after
creation, and the bytes that are not zero, by rising address. -/
structure Memory where
  size : Nat
  cells : List Host.Cell
  deriving DecidableEq, Repr

/-- The byte a list of cells holds at an address. -/
def cellsGet : List Host.Cell → Nat → Byte
  | [], _ => unlistedByte
  | (k, b) :: rest, a => if k = a then b else cellsGet rest a

/-- The list of cells with the byte at one address replaced, in canonical form again. -/
def cellsSet : List Host.Cell → Nat → Byte → List Host.Cell
  | [], a, b => if b = unlistedByte then [] else [(a, b)]
  | (k, c) :: rest, a, b =>
    if a < k then (if b = unlistedByte then (k, c) :: rest else (a, b) :: (k, c) :: rest)
    else if a = k then (if b = unlistedByte then rest else (a, b) :: rest)
    else (k, c) :: cellsSet rest a b

/-- `mem[a]`, defined for `a < MEMSIZE` only (R7); at or above MEMSIZE there is no memory (R41). -/
def Memory.read (m : Memory) (a : Nat) : Option Byte :=
  if a < m.size then some (cellsGet m.cells a) else none

/-- Replace the byte at an address. No instruction does this (R40): only the image load of reset (R121) and
`State.withFetchWord` use it. Outside the memory there is nothing to replace. -/
def Memory.write (m : Memory) (a : Nat) (b : Byte) : Memory :=
  if a < m.size then { m with cells := cellsSet m.cells a b } else m

/-- Replace consecutive bytes from an address on, in ascending order. -/
def Memory.writeBytes (m : Memory) (a : Nat) : List Byte → Memory
  | [] => m
  | b :: bs => (m.write a b).writeBytes (a + 1) bs

/-- A memory of `size` bytes, all zero (R120 point 2). -/
def Memory.zeroed (size : Nat) : Memory := { size := size, cells := [] }

/-- How many bytes of the image are copied: `L = min(length(IMAGE), IMAGE_MAX, MEMSIZE)` (R22, R121, D8). -/
def imageBytesLoaded (p : Config.Params) : Nat := min p.image.length (min p.imageMax p.memSize)

/-- The memory after the image load: the first `L` bytes of the image from address 0, zero beyond
(R120 points 2 and 3, R121). -/
def Memory.loaded (p : Config.Params) : Memory :=
  (Memory.zeroed p.memSize).writeBytes 0 (p.image.take (imageBytesLoaded p))

/-- The canonical form, so that equal memories are equal data: a size in the domain of D2, addresses
strictly rising and below the size, and no cell equal to what an unlisted address reads as. -/
abbrev Memory.wf (m : Memory) : Prop :=
  m.size ≤ Config.addressSpace ∧ m.cells.Pairwise (fun c d => c.1 < d.1) ∧
    ∀ c ∈ m.cells, c.1 < m.size ∧ c.2 ≠ unlistedByte

end Sys2Proof.Machine
end

