-- ==== Sys2Proof/Machine/State.lean ====
section
/-! DEFINITION. The whole state of CORE (spec/10_state.md R10), the ways a step can end other than in a
next state, and reset (R22, spec/70_reset_and_hazards.md R120). -/

namespace Sys2Proof.Machine

/-- The register file: eight unsigned 32-bit registers (R11), each named by its role's register. Reads and
writes go through `readReg` and `writeReg` of Ops.lean. -/
structure RegFile where
  eax : Word
  ecx : Word
  edx : Word
  ebx : Word
  esp : Word
  ebp : Word
  esi : Word
  edi : Word
  deriving DecidableEq, Repr

/-- The reasons of a halt; symbolic, with no numeric codes (R17, R100, R105). -/
inductive HaltReason where
  /-- "instruction pointer reaches or exceeds memory size", or an operand byte outside memory (R101) -/
  | outOfBounds
  /-- "no handler bound for the fetched opcode", with the opcode byte (R102) -/
  | unimplementedOpcode (op : Byte)
  /-- "instruction pointer becomes exactly zero after a handler executes" (R103) -/
  | programEnd
  deriving DecidableEq, Repr

/-- `run`, the only status register (R17). -/
inductive RunState where
  | running
  | halted (reason : HaltReason)
  deriving DecidableEq, Repr

/-- The complete mutable state: the register file, the program counter, the memory and the run state, and
no others (R10). -/
structure State where
  /-- x[0..7] (R11) -/
  regs : RegFile
  /-- the program counter, the source's `instruction_pointer` (R13) -/
  pc : Word
  /-- the flat byte memory with its size MEMSIZE (R16) -/
  mem : Memory
  /-- the run state (R17) -/
  run : RunState
  deriving DecidableEq, Repr

/-- Why a step answers no state. -/
inductive Fault where
  /-- Raised by the Execution Loop, and by it alone, when the machine is HALTED already: "no transitions
  leave a terminal state" (R72, R109). Every exceptional event of the hardware itself is a next state
  whose `run` is HALTED. DESIGN CHOICE (log 1), safe: no state is invented after a terminal one. -/
  | noTransition (reason : HaltReason)
  deriving DecidableEq, Repr

/-- Why an instruction has no meaning in the model. -/
inductive Refusal where
  /-- Raised by an arm of `exec` that has no meaning yet, and by nothing else; safe. No arm of this model
  raises it. -/
  | notModelled (mnemonic : String)
  deriving DecidableEq, Repr

/-- The register file right after creation: "zero-initialized", then the stack-pointer register takes
INIT_SP (R22, R120 point 2, C2). -/
def RegFile.initial (initSp : Word) : RegFile :=
  { eax := 0, ecx := 0, edx := 0, ebx := 0, esp := initSp, ebp := 0, esi := 0, edi := 0 }

/-- Reset, the source's creation, as a function of the parameters (R22, R120). -/
def State.create (p : Config.Params) : State :=
  { regs := RegFile.initial p.initSp
    pc := p.initIp
    mem := Memory.loaded p
    run := .running }

/-- The machine right after reset at the reference parameters. INIT_IP, INIT_SP and IMAGE have no reference
value in the spec: DESIGN CHOICE, unsafe (log 2). -/
def State.reset : State := State.create Config.reference

end Sys2Proof.Machine
end

