-- ==== Sys2Proof/Machine/Ops.lean ====
section
/-! DEFINITION. The named operations over registers, program counter and memory, and the halt, the one
exception mechanism of the hardware (spec/60_exceptions.md R108). There is no return from it (R109). -/

namespace Sys2Proof.Machine

/-! ## Registers -/

/-- `x[i]` (R8): no register is hard-wired, banked or aliased (R12). -/
def readReg (s : State) (r : Reg) : Word :=
  match r with
  | .eax => s.regs.eax
  | .ecx => s.regs.ecx
  | .edx => s.regs.edx
  | .ebx => s.regs.ebx
  | .esp => s.regs.esp
  | .ebp => s.regs.ebp
  | .esi => s.regs.esi
  | .edi => s.regs.edi

/-- The register file with one register replaced: "a write stores the value exactly" (R12). -/
def RegFile.set (f : RegFile) (r : Reg) (v : Word) : RegFile :=
  match r with
  | .eax => { f with eax := v }
  | .ecx => { f with ecx := v }
  | .edx => { f with edx := v }
  | .ebx => { f with ebx := v }
  | .esp => { f with esp := v }
  | .ebp => { f with ebp := v }
  | .esi => { f with esi := v }
  | .edi => { f with edi := v }

/-- `x[i] <- v` (R8). -/
def writeReg (s : State) (r : Reg) (v : Word) : State :=
  { s with regs := s.regs.set r v }

/-! ## The program counter -/

/-- `wrap32(n)`: the u32 congruent to `n` modulo 2^32 (R7). -/
def wrap32 (n : Int) : Word := BitVec.ofInt 32 n

/-- `pc <- v` (R8). -/
def setPc (s : State) (v : Word) : State := { s with pc := v }

/-! ## The Byte Decoder on the machine's memory

Every access is at `pc + off`, the sum a natural number that is never wrapped (R8, D4). -/

/-- `read_u8(off)` (R32); `none` is the raise of OutOfBounds (R36). -/
def readU8 (s : State) (off : Nat) : Option Byte := s.mem.read (s.pc.toNat + off)

/-- `read_i8(off)` (R33). -/
def readI8 (s : State) (off : Nat) : Option Int := i8From (readU8 s) off

/-- `read_u32(off)` (R34). -/
def readU32 (s : State) (off : Nat) : Option Word := u32From (readU8 s) off

/-- Step 1's test: there is a byte to fetch at `pc` (R67). -/
def fetchable (s : State) : Bool := s.pc.toNat < s.mem.size

/-- Fetch, table lookup and operand reads at the current program counter (R68, R73 (a)): the opcode byte
first, then the operand bytes that the handler needs. -/
def fetch (s : State) : Except DecodeError Instr := decodeFrom (readU8 s)

/-! ## Halts -/

/-- What a halt does: it sets `run` to HALTED(reason) and nothing else (R108). -/
def halt (reason : HaltReason) (s : State) : State := { s with run := .halted reason }

/-- `raise OutOfBounds` (R8, R101): none of the handler's writes is performed. -/
def raiseOutOfBounds (s : State) : State := halt .outOfBounds s

/-- `raise Unimplemented(op)` (R8, R102). -/
def raiseUnimplemented (op : Byte) (s : State) : State := halt (.unimplementedOpcode op) s

/-- Step 4, the sentinel check after a handler: "if `instruction_pointer == 0`: transition to
`HALTED(program_end)`" (R71). It is skipped where the handler did not complete, which its raise has
recorded in `run` (R70). -/
def sentinelCheck (s : State) : State :=
  match s.run with
  | .running => if s.pc = 0 then halt .programEnd s else s
  | .halted _ => s

end Sys2Proof.Machine
end

