-- ==== Sys2Proof/Machine/Operands.lean ====
section
/-! DEFINITION. The operand forms of the two handlers: every operand is in the instruction's own bytes, at
`pc + 1` and up (spec/40_fetch_dispatch.md R73); there are no register sources and no data addresses
(spec/20_memory.md R31). There is no Flags.lean: the hardware has no flags (spec/10_state.md R18). -/

namespace Sys2Proof.Machine

/-- All `n` bytes of the instruction at `pc` lie in memory: `pc + n <= MEMSIZE` (R36, R81, R89). -/
def bytesInMemory (s : State) (n : Nat) : Bool := s.pc.toNat + n ≤ s.mem.size

/-- The handler contract's order of effects (R73, D21): an instruction of `n` bytes whose operand bytes are
not all in memory raises OutOfBounds and does nothing else; otherwise its effect takes place whole. -/
def withOperands (n : Nat) (effect : State → State) (s : State) : Host.Outcome State Fault Refusal :=
  if bytesInMemory s n then .next (effect s) else .next (raiseOutOfBounds s)

/-- The new program counter of a straight-line handler: "current position + consumed length", modulo 2^32
(R73, R80, D6). -/
def pcAfter (s : State) (n : Nat) : Word := wrap32 ((s.pc.toNat : Int) + n)

/-- The target of a short jump: `wrap32(disp + 2)`, an absolute address; the old program counter is no
input (R85, C1, D5). -/
def jumpTarget (d : Byte) : Word := wrap32 (sext32 d + 2)

/-- The register an instruction writes, if any: MOV's destination; JMP and an absent opcode write none
(R12, R80, R85, R69). -/
def destination (i : Instr) : Option Reg :=
  match i with
  | .mov r _ => some r
  | .jmp _ => none
  | .absent _ => none

end Sys2Proof.Machine
end

