-- ==== Sys2Proof/Machine/AbsentOpcode.lean ====
section
/-! DEFINITION. The opcode bytes without a handler (spec/30_encoding.md R57). -/

namespace Sys2Proof.Machine

/-- An absent opcode halts the machine with unimplemented_opcode(op); `x`, `pc` and `mem` are unchanged and
no operand byte is read (R57, R68, R69). -/
def execAbsent (op : Byte) (s : State) : Host.Outcome State Fault Refusal :=
  .next (raiseUnimplemented op s)

end Sys2Proof.Machine
end

