-- ==== Sys2Proof/Machine/MoveImmediate.lean ====
section
/-! DEFINITION. MOV, move 32-bit immediate to register (spec/41_move_immediate.md). -/

namespace Sys2Proof.Machine

/-- MOV (R80): `x[r] <- imm; pc <- wrap32(pc + 5)`; OutOfBounds with no effect when `pc + 5 > MEMSIZE`
(R81). `imm` is the little-endian value of the four bytes at `pc + 1`, which the decoder has read. -/
def execMov (r : Reg) (imm : Word) (s : State) : Host.Outcome State Fault Refusal :=
  withOperands 5 (fun s => setPc (writeReg s r imm) (pcAfter s 5)) s

end Sys2Proof.Machine
end

