-- ==== Sys2Proof/Machine/ShortJump.lean ====
section
/-! DEFINITION. JMP, short jump to the absolute address displacement + 2 (spec/42_short_jump.md). -/

namespace Sys2Proof.Machine

/-- JMP (R85): `pc <- wrap32(disp + 2)`, ABSOLUTE; OutOfBounds with no effect when `pc + 2 > MEMSIZE`
(R89). -/
def execJmp (d : Byte) (s : State) : Host.Outcome State Fault Refusal :=
  withOperands 2 (fun s => setPc s (jumpTarget d)) s

end Sys2Proof.Machine
end

