-- ==== Sys2Proof/Machine/Dispatch.lean ====
section
/-! DEFINITION. Dispatch: step 3 of the transition rule (spec/40_fetch_dispatch.md R66), one arm per
instruction. -/

namespace Sys2Proof.Machine

def exec (i : Instr) (s : State) : Host.Outcome State Fault Refusal :=
  match i with
  | .mov r imm => Sys2Proof.Machine.execMov r imm s
  | .jmp d => Sys2Proof.Machine.execJmp d s
  | .absent op => Sys2Proof.Machine.execAbsent op s

end Sys2Proof.Machine
end

