-- ==== Sys2Proof/Machine/Loop.lean ====
section
/-! DEFINITION. The Execution Loop's transition rule (spec/40_fetch_dispatch.md R66). -/

namespace Sys2Proof.Machine

/-- What the loop does with the state a handler leaves: the sentinel check of step 4 (R71). -/
def afterHandler (o : Host.Outcome State Fault Refusal) : Host.Outcome State Fault Refusal :=
  match o with
  | .next t => .next (sentinelCheck t)
  | .fault f => .fault f
  | .refused r => .refused r

/-- One iteration (R66), applied when `run` is RUNNING: the guard of step 1 (R67), the fetch of step 2
(R68), decode and dispatch (R69, R70; an operand byte outside memory halts with out_of_bounds, R36), and
the sentinel check of step 4 (R71). From HALTED there is no transition (R72). -/
def iteration (s : State) : Host.Outcome State Fault Refusal :=
  match s.run with
  | .halted reason => .fault (.noTransition reason)
  | .running =>
    if fetchable s then
      match fetch s with
      | .error _ => .next (raiseOutOfBounds s)
      | .ok i => afterHandler (exec i s)
    else .next (raiseOutOfBounds s)

/-- Place the bytes of an instruction at the program counter: the stand-in for an image whose bytes stand
there (R121, log 4). Only memory changes. -/
def placeAtPc (s : State) (bs : List Byte) : State :=
  { s with mem := s.mem.writeBytes s.pc.toNat bs }

end Sys2Proof.Machine
end

