-- ==== Sys2Proof/Machine/Step.lean ====
section
/-! DEFINITION. The step of the machine: one iteration of the Execution Loop (spec/00_scope.md R6). -/

namespace Sys2Proof.Machine

/-- One step is one iteration (R66), the one atomic transition of the machine (R6). -/
def step (s : State) : Host.Outcome State Fault Refusal := iteration s

/-- `s` with the instruction of the opcode table's numbering stored where `step` fetches its next
instruction: at `pc` (log 4). -/
def State.withFetchWord (s : State) (nbits w : Nat) : State :=
  placeAtPc s (tableWordBytes nbits w)

end Sys2Proof.Machine
end

