-- ==== Sys2Proof/Machine/Diagnostics.lean ====
section
/-! DEFINITION. The read-only diagnostic outputs (spec/60_exceptions.md R113) and the counts of
spec/40_fetch_dispatch.md R76. Outputs are functions of the state, not state (spec/10_state.md R21). -/

namespace Sys2Proof.Machine

/-- The trace pair the iteration from `s` emits: the program counter before the handler and the opcode, for
every iteration that reaches the fetch; an iteration that halts at the guard emits nothing
(R75, R67, D15). -/
def trace (s : State) : Option (Word × Byte) :=
  match s.run with
  | .halted _ => none
  | .running => if fetchable s then (readU8 s 0).map (fun op => (s.pc, op)) else none

/-- The stable name string of a register (R113); two names are the source's, six the spec's (D14). -/
def regName (r : Reg) : String :=
  match r with
  | .eax => "EAX"
  | .ecx => "ECX"
  | .edx => "EDX"
  | .ebx => "EBX"
  | .esp => "ESP"
  | .ebp => "EBP"
  | .esi => "ESI"
  | .edi => "EDI"

/-- The registers in the order of their indices (R11). -/
def allRegs : List Reg := [.eax, .ecx, .edx, .ebx, .esp, .ebp, .esi, .edi]

/-- The register dump: nine values with their names, the registers and then the program counter
(R113 part 1). -/
def registerDump (s : State) : List (String × Word) :=
  allRegs.map (fun r => (regName r, readReg s r)) ++ [("pc", s.pc)]

/-- What a halt makes known: the reason, with the opcode for unimplemented_opcode, and the program counter
(R17, R100, R113 part 3); nothing while the machine is RUNNING. -/
def haltReport (s : State) : Option (HaltReason × Word) :=
  match s.run with
  | .running => none
  | .halted reason => some (reason, s.pc)

/-- The iteration from `s` is an executed instruction: a handler runs to completion (R76). -/
def executesInstruction (s : State) : Bool :=
  match s.run with
  | .halted _ => false
  | .running =>
    match fetchable s, fetch s with
    | true, .ok (.mov _ _) => true
    | true, .ok (.jmp _) => true
    | _, _ => false

/-- How many of the next `fuel` iterations from `s` there are, the halting one included (R76). -/
def iterationCount : Nat → State → Nat
  | 0, _ => 0
  | fuel + 1, s =>
    match step s with
    | .next t => 1 + iterationCount fuel t
    | .fault _ => 0
    | .refused _ => 0

/-- How many of the next `fuel` iterations from `s` are executed instructions (R76). -/
def executedCount : Nat → State → Nat
  | 0, _ => 0
  | fuel + 1, s =>
    match step s with
    | .next t => (if executesInstruction s then 1 else 0) + executedCount fuel t
    | .fault _ => 0
    | .refused _ => 0

end Sys2Proof.Machine
end

