-- ==== Sys2Proof/Safety.lean ====
section
/-! DEFINITION. What holds along every run: the record a halt leaves is accurate, and memory keeps its
canonical form; and how the ends of a run are classed (spec/92_eei_decisions.md D11). -/

namespace Sys2Proof.Machine

/-- An operand byte of the instruction at `pc` is missing: the opcode byte is in memory and its handler
needs more bytes than memory holds from there (R81, R89, R101 cause 2). -/
def operandMissing (s : State) : Prop :=
  ∃ op, s.mem.read s.pc.toNat = some op ∧ s.mem.size < s.pc.toNat + handlerLength (lookupHandler op)

/-- What `run` records agrees with the rest of the state (R100 to R103): out_of_bounds with `pc` outside
memory or at an instruction cut off by the end of memory; unimplemented_opcode(op) with `pc` at a byte `op`
that has no handler; program_end with `pc = 0`. -/
def HaltRecordAccurate (s : State) : Prop :=
  match s.run with
  | .running => True
  | .halted .outOfBounds => s.mem.size ≤ s.pc.toNat ∨ operandMissing s
  | .halted (.unimplementedOpcode op) => s.mem.read s.pc.toNat = some op ∧ lookupHandler op = .absent
  | .halted .programEnd => s.pc = 0

/-- The invariant of the machine. -/
def Inv (s : State) : Prop := s.mem.wf ∧ HaltRecordAccurate s

/-- `t` is reached from `s` by finitely many steps. -/
inductive Reaches : State → State → Prop where
  | refl (s : State) : Reaches s s
  | tail {s t u : State} : Reaches s t → step t = .next u → Reaches s u

/-- The normal end of a run: program_end, "not an error, but a normal termination signal" (R103, D11). -/
def NormalEnd (s : State) : Prop := s.run = .halted .programEnd

/-- A run from `s` is safe in the sense the spec recommends for claims (D11): no state it reaches has halted
with out_of_bounds or unimplemented_opcode. -/
def SafeFrom (s : State) : Prop :=
  ∀ t, Reaches s t → t.run = .running ∨ NormalEnd t

end Sys2Proof.Machine
end

