-- ==== Sys2Proof/Certificates/Slice0/Obligations.lean ====
section
/-! DEFINITION. The statements for the provers, each with the rules of spec/ it formalises. -/

open Sys2Proof Sys2Proof.Machine

/-! ## Encoding -/

/-- A few instruction words written out from the formats of R51 and R52 decode to what they stand for; an
opcode without a handler decodes to itself (R57); a jump without its displacement byte is refused. That the
absent opcode takes one byte and leaves the next one over is the model's choice (log 6): R59 gives it no
length. -/
def Obligations.SampleWordsDecode : Prop :=
  decode [0xBB#8, 0x2C#8, 0x00#8, 0x00#8, 0x00#8] = .ok (.mov .ebx 0x0000002C#32, []) ∧
  decode [0xBE#8, 0x78#8, 0x56#8, 0x34#8, 0x12#8, 0xEB#8] = .ok (.mov .esi 0x12345678#32, [0xEB#8]) ∧
  decode [0xEB#8, 0xFE#8] = .ok (.jmp 0xFE#8, []) ∧
  decode [0x00#8, 0xB8#8] = .ok (.absent 0x00#8, [0xB8#8]) ∧
  decode [0xEB#8] = .error (.operandMissing 0xEB#8)

/-- Decoding an encoded well-formed instruction gives it back, with every operand at every value, whatever
bytes follow it (R51 to R55; which opcodes are absent: R57). For an absent opcode, the encoding of one byte
and the bytes left over after it are the model's choice (log 6): R59 gives it no length. -/
def Obligations.DecodeEncodeRoundTrip : Prop :=
  ∀ (i : Instr) (rest : List Byte), WellFormed i = true → decode (encode i ++ rest) = .ok (i, rest)

/-- What the decoder accepts is exactly an encoding: the decoded instruction is well formed, and the bytes
are its encoding followed by the bytes left over. No two encodings overlap (R50, R59). For an absent opcode,
whose length R59 leaves undefined, that one byte is its encoding and is consumed is the model's choice
(log 6). -/
def Obligations.DecodedBytesAreTheEncoding : Prop :=
  ∀ (bs : List Byte) (i : Instr) (rest : List Byte), decode bs = .ok (i, rest) →
    WellFormed i = true ∧ bs = encode i ++ rest

/-- The decoder refuses only for want of bytes, and says which: no operand value is illegal (R58), every
opcode byte has an entry (R56), and a list with an opcode decodes exactly when it is as long as that
opcode's instruction (R59; for an absent opcode, whose length R59 leaves undefined, one byte by the model's
choice, log 6). -/
def Obligations.DecodeRefusesOnlyMissingBytes : Prop :=
  decode [] = .error .noOpcode ∧
  ∀ (op : Byte) (operands : List Byte),
    (handlerLength (lookupHandler op) ≤ operands.length + 1 →
      ∃ i rest, decode (op :: operands) = .ok (i, rest)) ∧
    (operands.length + 1 < handlerLength (lookupHandler op) →
      decode (op :: operands) = .error (.operandMissing op))

/-- R51, format OI: five bytes whose first has `10111` in bits 7:3 are MOV with the register index in bits
2:0, and bytes 1 to 4 hold immediate bits 7:0, 15:8, 23:16 and 31:24; MOV is encoded so. -/
def Obligations.MovFormatBits : Prop :=
  (∀ b0 b1 b2 b3 b4 : Byte, b0.extractLsb' 3 5 = 0b10111#5 →
    ∃ r imm, decode [b0, b1, b2, b3, b4] = .ok (.mov r imm, []) ∧
      regIndex r = (b0.extractLsb' 0 3).toNat ∧
      imm.extractLsb' 0 8 = b1 ∧ imm.extractLsb' 8 8 = b2 ∧
      imm.extractLsb' 16 8 = b3 ∧ imm.extractLsb' 24 8 = b4) ∧
  ∀ (r : Reg) (imm : Word), ∃ b0 b1 b2 b3 b4 : Byte, encode (.mov r imm) = [b0, b1, b2, b3, b4] ∧
    b0.extractLsb' 3 5 = 0b10111#5 ∧ (b0.extractLsb' 0 3).toNat = regIndex r ∧
    b1 = imm.extractLsb' 0 8 ∧ b2 = imm.extractLsb' 8 8 ∧
    b3 = imm.extractLsb' 16 8 ∧ b4 = imm.extractLsb' 24 8

/-- R52, format J8: the opcode byte `11101011`, then the displacement byte, which is read as a
two's-complement signed 8-bit value. -/
def Obligations.JmpFormatBits : Prop :=
  ∀ d : Byte, decode [0b11101011#8, d] = .ok (.jmp d, []) ∧ encode (.jmp d) = [0b11101011#8, d] ∧
    sext32 d = d.toInt

/-- R55: for every opcode in 0xB8..0xBF the register field is the low three bits, and equally the opcode
minus 0xB8; it indexes the register file in the order of R11. -/
def Obligations.RegisterFieldIsLowOpcodeBits : Prop :=
  (∀ op : Byte, 0xB8 ≤ op.toNat → op.toNat ≤ 0xBF →
    regIndex (regOfOpcode op) = (op.extractLsb' 0 3).toNat ∧
    regIndex (regOfOpcode op) = op.toNat - 0xB8) ∧
  allRegs.map regIndex = [0, 1, 2, 3, 4, 5, 6, 7]

/-- R56: the handler table is the total map on the 256 opcode bytes, in match and mask form and in ranges,
with its counts 8, 1 and 247. The table is constant by the spec's decision D7. -/
def Obligations.HandlerTableIsTheOpcodeMap : Prop :=
  (∀ op : Byte, lookupHandler op =
    if op &&& 0xF8#8 = 0xB8#8 then .mov else if op &&& 0xFF#8 = 0xEB#8 then .jmp else .absent) ∧
  (∀ op : Byte, lookupHandler op = .absent ↔
    op.toNat ≤ 0xB7 ∨ (0xC0 ≤ op.toNat ∧ op.toNat ≤ 0xEA) ∨ 0xEC ≤ op.toNat) ∧
  (List.range 256).countP (fun n => lookupHandler (BitVec.ofNat 8 n) == .mov) = 8 ∧
  (List.range 256).countP (fun n => lookupHandler (BitVec.ofNat 8 n) == .jmp) = 1 ∧
  (List.range 256).countP (fun n => lookupHandler (BitVec.ofNat 8 n) == .absent) = 247

/-- R60, the table's construction contract: a registration binds its opcode and no other, the last of two
registrations of one opcode wins, and an opcode never registered is absent. -/
def Obligations.LastRegistrationWins : Prop :=
  (∀ (t : HandlerTable) (op : Byte) (h h' : Handler),
    registerHandler (registerHandler t op h) op h' = registerHandler t op h' ∧
    registerHandler t op h op = h ∧ ∀ o, o ≠ op → registerHandler t op h o = t o) ∧
  ∀ op, emptyTable op = .absent

/-! ## The Byte Decoder's reads -/

/-- R32 and R33: inside memory `read_u8(off)` is the byte at `pc + off` and `read_i8(off)` is the same byte
`b` read as `b` if `b < 128`, else `b - 256`, with the examples of R33. That there is no value outside memory
is R36, the spec's decision D3, and that `pc + off` is not wrapped is its decision D4 (log 7). -/
def Obligations.ByteReads : Prop :=
  (∀ (s : State) (off : Nat),
    (s.pc.toNat + off < s.mem.size → ∃ b, s.mem.read (s.pc.toNat + off) = some b ∧
      readU8 s off = some b ∧
      readI8 s off = some (if b.toNat < 128 then (b.toNat : Int) else (b.toNat : Int) - 256)) ∧
    (s.mem.size ≤ s.pc.toNat + off → readU8 s off = none ∧ readI8 s off = none)) ∧
  sext32 0x00#8 = 0 ∧ sext32 0x7F#8 = 127 ∧ sext32 0x80#8 = -128 ∧ sext32 0xFE#8 = -2 ∧ sext32 0xFF#8 = -1

/-- R34: `read_u32(off)` assembles four consecutive bytes little-endian,
`b0 | (b1<<8) | (b2<<16) | (b3<<24)`, with the example of R34. That there is no value unless all four lie
below MEMSIZE is R36, the spec's decision D3, and that the address sum is not wrapped is its decision D4
(log 7). -/
def Obligations.WordReadIsLittleEndian : Prop :=
  (∀ (s : State) (off : Nat),
    (s.pc.toNat + off + 4 ≤ s.mem.size → ∃ b0 b1 b2 b3 v,
      s.mem.read (s.pc.toNat + off) = some b0 ∧ s.mem.read (s.pc.toNat + off + 1) = some b1 ∧
      s.mem.read (s.pc.toNat + off + 2) = some b2 ∧ s.mem.read (s.pc.toNat + off + 3) = some b3 ∧
      readU32 s off = some v ∧
      v.toNat = b0.toNat ||| (b1.toNat <<< 8) ||| (b2.toNat <<< 16) ||| (b3.toNat <<< 24)) ∧
    (s.mem.size < s.pc.toNat + off + 4 → readU32 s off = none)) ∧
  le32 0x78#8 0x56#8 0x34#8 0x12#8 = 0x12345678#32

/-! ## The instructions: results and frames -/

/-- MOV whose five bytes lie in memory completes: the destination holds the immediate exactly, the program
counter advances by 5, the seven other registers, every byte of memory and the run state are unchanged
(R80, R83). The advance is modulo 2^32 (R82, the spec's decision D6). -/
def Obligations.MovCompletes : Prop :=
  ∀ (r : Reg) (imm : Word) (s : State), s.pc.toNat + 5 ≤ s.mem.size →
    ∃ t, exec (.mov r imm) s = .next t ∧ readReg t r = imm ∧
      (∀ r', r' ≠ r → readReg t r' = readReg s r') ∧ t.pc = s.pc + 5#32 ∧
      t.mem.size = s.mem.size ∧ (∀ a, t.mem.read a = s.mem.read a) ∧ t.run = s.run

/-- JMP whose two bytes lie in memory completes: the program counter is the signed displacement plus 2, an
absolute address; every register, every byte of memory and the run state are unchanged (R85). A negative
sum is taken modulo 2^32 (R86, the spec's decision D5). -/
def Obligations.JmpCompletes : Prop :=
  ∀ (d : Byte) (s : State), s.pc.toNat + 2 ≤ s.mem.size →
    ∃ t, exec (.jmp d) s = .next t ∧ t.pc = d.signExtend 32 + 2#32 ∧
      (∀ r, readReg t r = readReg s r) ∧
      t.mem.size = s.mem.size ∧ (∀ a, t.mem.read a = s.mem.read a) ∧ t.run = s.run

/-- An absent opcode's own effect is its halt: `run` records the opcode, and the registers, the program
counter and every byte of memory are unchanged (R57, R69). -/
def Obligations.AbsentOpcodeCompletes : Prop :=
  ∀ (op : Byte) (s : State), ∃ t, exec (.absent op) s = .next t ∧
    t.run = .halted (.unimplementedOpcode op) ∧ t.pc = s.pc ∧ (∀ r, readReg t r = readReg s r) ∧
    t.mem.size = s.mem.size ∧ (∀ a, t.mem.read a = s.mem.read a)

/-- MOV and JMP cut off by the end of memory write neither register nor program counter and halt with
out_of_bounds (R81, R89; the hardened variant, the spec's decision D3). -/
def Obligations.CutOffInstructionsHalt : Prop :=
  (∀ (r : Reg) (imm : Word) (s : State), s.mem.size < s.pc.toNat + 5 →
    exec (.mov r imm) s = .next { s with run := .halted .outOfBounds }) ∧
  (∀ (d : Byte) (s : State), s.mem.size < s.pc.toNat + 2 →
    exec (.jmp d) s = .next { s with run := .halted .outOfBounds })

/-- The frame of MOV, JMP and an absent opcode, whatever they end in: every register but MOV's destination,
the memory's size and every byte of memory are unchanged, and the run state is unchanged or records the
halt of that instruction (R12, R40, R70). The halt with out_of_bounds of a cut-off MOV or JMP is the spec's
decision D3 (log 7). -/
def Obligations.InstructionFrame : Prop :=
  ∀ (i : Instr) (s t : State), exec i s = .next t →
    (∀ r, destination i ≠ some r → readReg t r = readReg s r) ∧
    t.mem.size = s.mem.size ∧ (∀ a, t.mem.read a = s.mem.read a) ∧
    (t.run = s.run ∨ t.run = .halted .outOfBounds ∨
      ∃ op, i = .absent op ∧ t.run = .halted (.unimplementedOpcode op))

/-! ## One step -/

/-- When the bytes at the program counter decode to an instruction, one step of the RUNNING machine is that
instruction's `exec`, followed by the sentinel check on the state it leaves (R66, R71). That operands are
decoded before `exec`, and that the check stands outside `exec`, is the model's arrangement (log 5). -/
def Obligations.StepRunsDecodedInstruction : Prop :=
  ∀ (s : State) (bs rest : List Byte) (i : Instr), s.run = .running →
    (∀ k b, bs[k]? = some b → s.mem.read (s.pc.toNat + k) = some b) →
    decode bs = .ok (i, rest) →
    WellFormed i = true ∧ ∃ t, exec i s = .next t ∧
      step s = .next (if t.run = .running ∧ t.pc = 0 then { t with run := .halted .programEnd } else t)

/-- R80 as one step from memory: an opcode in 0xB8..0xBF at `pc` moves the four bytes that follow it,
little-endian, into register `opcode - 0xB8` and advances the program counter by 5, changing nothing else,
and the sentinel check follows (R71); with an immediate byte outside memory it changes nothing and halts
with out_of_bounds. The advance modulo 2^32 is the spec's decision D6 (R82), the halt of a cut-off MOV its
decision D3 (R81) (log 7). -/
def Obligations.MovStep : Prop :=
  ∀ (s : State) (op : Byte), s.run = .running → s.mem.read s.pc.toNat = some op →
    0xB8 ≤ op.toNat → op.toNat ≤ 0xBF →
    (s.pc.toNat + 5 ≤ s.mem.size → ∃ b0 b1 b2 b3 r t,
      s.mem.read (s.pc.toNat + 1) = some b0 ∧ s.mem.read (s.pc.toNat + 2) = some b1 ∧
      s.mem.read (s.pc.toNat + 3) = some b2 ∧ s.mem.read (s.pc.toNat + 4) = some b3 ∧
      regIndex r = op.toNat - 0xB8 ∧ step s = .next t ∧
      (readReg t r).toNat = b0.toNat ||| (b1.toNat <<< 8) ||| (b2.toNat <<< 16) ||| (b3.toNat <<< 24) ∧
      (∀ r', r' ≠ r → readReg t r' = readReg s r') ∧ t.pc = s.pc + 5#32 ∧ t.mem = s.mem ∧
      t.run = if t.pc = 0 then .halted .programEnd else .running) ∧
    (s.mem.size < s.pc.toNat + 5 → step s = .next { s with run := .halted .outOfBounds })

/-- R85 as one step from memory: 0xEB at `pc` with displacement byte `d` after it sets the program counter
to `d + 2` with `d` signed, an absolute address that does not depend on the old one, changing nothing else,
and the sentinel check follows (R71); with the displacement byte outside memory it changes nothing and halts
with out_of_bounds. A negative sum as its residue modulo 2^32 is the spec's decision D5 (R86), the halt of a
cut-off JMP its decision D3 (R89) (log 7). -/
def Obligations.JmpStep : Prop :=
  ∀ s : State, s.run = .running → s.mem.read s.pc.toNat = some 0xEB#8 →
    (s.pc.toNat + 2 ≤ s.mem.size → ∃ d t, s.mem.read (s.pc.toNat + 1) = some d ∧ step s = .next t ∧
      t.pc = BitVec.ofInt 32 ((if d.toNat < 128 then (d.toNat : Int) else (d.toNat : Int) - 256) + 2) ∧
      (∀ r, readReg t r = readReg s r) ∧ t.mem = s.mem ∧
      t.run = if t.pc = 0 then .halted .programEnd else .running) ∧
    (s.mem.size < s.pc.toNat + 2 → step s = .next { s with run := .halted .outOfBounds })

/-- R57 and R69: each of the 247 opcode bytes without a handler, 0x00, 0x90 and 0xF4 among them, halts with
unimplemented_opcode and that byte; registers, program counter and memory are unchanged, so `pc` still
addresses the byte; and there is no recovery. -/
def Obligations.AbsentOpcodeStep : Prop :=
  (∀ (s : State) (op : Byte), s.run = .running → s.mem.read s.pc.toNat = some op →
    op.toNat ≤ 0xB7 ∨ (0xC0 ≤ op.toNat ∧ op.toNat ≤ 0xEA) ∨ 0xEC ≤ op.toNat →
    ∃ t, step s = .next t ∧ t = { s with run := .halted (.unimplementedOpcode op) } ∧
      t.mem.read t.pc.toNat = some op ∧ ∀ u, step t ≠ .next u) ∧
  lookupHandler 0x00#8 = .absent ∧ lookupHandler 0x90#8 = .absent ∧ lookupHandler 0xF4#8 = .absent ∧
  (List.range 256).countP (fun n => decide (n ≤ 0xB7 ∨ (0xC0 ≤ n ∧ n ≤ 0xEA) ∨ 0xEC ≤ n)) = 247

/-- R67: with `pc >= MEMSIZE` the RUNNING machine halts with out_of_bounds, changes nothing else and emits
no trace pair, on the first iteration too (`INIT_IP >= MEMSIZE`); with MEMSIZE = 2^32 the guard never
fires. -/
def Obligations.GuardHaltsOutsideMemory : Prop :=
  (∀ s : State, s.run = .running → s.mem.size ≤ s.pc.toNat →
    step s = .next { s with run := .halted .outOfBounds } ∧ trace s = none) ∧
  (∀ p : Config.Params, p.memSize ≤ p.initIp.toNat →
    step (State.create p) = .next { State.create p with run := .halted .outOfBounds }) ∧
  (∀ s : State, s.mem.size = Config.addressSpace → fetchable s = true)

/-- The order of the tests in one iteration and the reason each records (R78, R100, R107): the guard, then
an absent opcode, then an operand byte outside memory (a halt by the spec's decision D3, log 7), then
`pc = 0` after a completed handler. -/
def Obligations.HaltReasonsInOrder : Prop :=
  ∀ s t : State, s.run = .running → step s = .next t →
    (s.mem.size ≤ s.pc.toNat → t.run = .halted .outOfBounds) ∧
    ∀ op, s.mem.read s.pc.toNat = some op →
      (lookupHandler op = .absent → t.run = .halted (.unimplementedOpcode op)) ∧
      (lookupHandler op ≠ .absent → s.mem.size < s.pc.toNat + handlerLength (lookupHandler op) →
        t.run = .halted .outOfBounds) ∧
      (lookupHandler op ≠ .absent → s.pc.toNat + handlerLength (lookupHandler op) ≤ s.mem.size →
        t.run = if t.pc = 0 then .halted .programEnd else .running)

/-- R108: a halt sets `run` to HALTED(reason) and nothing else. With out_of_bounds or unimplemented_opcode
the halting instruction has had no effect at all; with program_end the last instruction has completed
entirely. -/
def Obligations.HaltsAreSetRunOnly : Prop :=
  ∀ (s t : State) (c : HaltReason), s.run = .running → step s = .next t → t.run = .halted c →
    (c ≠ .programEnd → t = { s with run := .halted c }) ∧
    (c = .programEnd → ∃ i u, fetch s = .ok i ∧ exec i s = .next u ∧ u.run = .running ∧
      t = { u with run := .halted .programEnd })

/-- A step ends in program_end exactly for `EB FE` at the program counter, and for MOV at 0xFFFFFFFB when
MEMSIZE is 2^32 (R71, R82, R87), for every MEMSIZE in its domain (the spec's decision D2). That MOV's program
counter wraps to 0 there is the spec's decision D6, and that no negative jump target becomes 0 rests on its
decision D5 (log 7). -/
def Obligations.ProgramEndExactlyWhen : Prop :=
  ∀ s t : State, s.mem.size ≤ Config.addressSpace → step s = .next t →
    (t.run = .halted .programEnd ↔
      (s.mem.read s.pc.toNat = some 0xEB#8 ∧ s.mem.read (s.pc.toNat + 1) = some 0xFE#8) ∨
      (s.mem.size = Config.addressSpace ∧ s.pc = 0xFFFFFFFB#32 ∧
        ∃ op, s.mem.read s.pc.toNat = some op ∧ lookupHandler op = .mov))

/-- R14: the program counter is written by handlers alone. An iteration without an executed instruction
leaves it unchanged; MOV adds 5 and JMP sets displacement plus 2. That both are taken modulo 2^32 is the
spec's decisions D6 (MOV, R82) and D5 (a negative sum of JMP, R86); that a cut-off instruction leaves it
unchanged is its decision D3 (R70) (log 7). -/
def Obligations.PcWrittenByHandlersAlone : Prop :=
  ∀ s t : State, step s = .next t →
    (executesInstruction s = false → t.pc = s.pc) ∧
    (executesInstruction s = true → ∃ op, s.mem.read s.pc.toNat = some op ∧
      ((lookupHandler op = .mov ∧ t.pc = s.pc + 5#32) ∨
       (lookupHandler op = .jmp ∧ ∃ d, s.mem.read (s.pc.toNat + 1) = some d ∧
          t.pc = BitVec.ofInt 32 (sext32 d + 2))))

/-- R76: an iteration of the RUNNING machine is an executed instruction exactly when it ends RUNNING or
with program_end. That a cut-off instruction is none rests on the spec's decision D3 (R70, log 7). -/
def Obligations.ExecutedInstructionsAreCompletedHandlers : Prop :=
  ∀ s : State, s.run = .running →
    (executesInstruction s = true ↔
      ∃ t, step s = .next t ∧ (t.run = .running ∨ t.run = .halted .programEnd))

/-- R76: executed instructions are among the iterations, and fewer iterations than were asked for means that
the run has reached HALTED. -/
def Obligations.IterationCounts : Prop :=
  ∀ (n : Nat) (s : State), executedCount n s ≤ iterationCount n s ∧ iterationCount n s ≤ n ∧
    (iterationCount n s < n → ∃ t c, Reaches s t ∧ t.run = .halted c)

/-! ## Short jumps -/

/-- R86: the target of every displacement byte, the negative sums as residues modulo 2^32 (the spec's
decision D5). -/
def Obligations.JumpTargetTable : Prop :=
  ∀ b : Byte,
    (b.toNat ≤ 0x7F → (jumpTarget b).toNat = b.toNat + 2) ∧
    (0x80 ≤ b.toNat → b.toNat ≤ 0xFD → (jumpTarget b).toNat = 0xFFFFFF02 + b.toNat) ∧
    (0xFE ≤ b.toNat → (jumpTarget b).toNat = b.toNat - 0xFE)

/-- Two jumps with the same displacement byte go to the same address wherever they stand and whatever the
registers and the rest of memory hold (R85, C1). -/
def Obligations.JumpIgnoresItsPosition : Prop :=
  ∀ (s s' : State) (d : Byte), s.run = .running → s'.run = .running →
    s.mem.read s.pc.toNat = some 0xEB#8 → s.mem.read (s.pc.toNat + 1) = some d →
    s'.mem.read s'.pc.toNat = some 0xEB#8 → s'.mem.read (s'.pc.toNat + 1) = some d →
    ∃ t t', step s = .next t ∧ step s' = .next t' ∧ t.pc = t'.pc ∧ t.run = t'.run

/-- R88: the addresses a jump can transfer control to are 1 to 129 and 0xFFFFFF82 to 0xFFFFFFFF. The high
range rests on the spec's decision D5 (log 7). -/
def Obligations.JumpReachesExactly : Prop :=
  ∀ v : Word, (v ≠ 0 ∧ ∃ d : Byte, jumpTarget d = v) ↔
    (1 ≤ v.toNat ∧ v.toNat ≤ 129) ∨ 0xFFFFFF82 ≤ v.toNat

/-- R88, R74: a jump whose target is its own address runs for ever, at any number of steps the same RUNNING
state. In the high range of targets this rests on the spec's decision D5 (log 7). -/
def Obligations.SelfJumpRunsForever : Prop :=
  ∀ (s : State) (d : Byte), s.run = .running → s.mem.read s.pc.toNat = some 0xEB#8 →
    s.mem.read (s.pc.toNat + 1) = some d → jumpTarget d = s.pc → s.pc ≠ 0 →
    ∀ n, Sys2Proof.core.run n s = .next s

/-- R87, R103: `EB FE` at the program counter ends the run normally, and the run from there is safe. That
program_end is the normal end, and what counts as safe, follow the spec's recommendation D11 (log 10). -/
def Obligations.JumpToZeroEndsNormally : Prop :=
  ∀ s : State, s.run = .running → s.mem.read s.pc.toNat = some 0xEB#8 →
    s.mem.read (s.pc.toNat + 1) = some 0xFE#8 →
    SafeFrom s ∧ ∃ t, Reaches s t ∧ NormalEnd t ∧ t.pc = 0 ∧ ∀ r, readReg t r = readReg s r

/-! ## The end of memory -/

/-- R81: MOV at the last address where it executes, `pc = MEMSIZE - 5`, completes and sets `pc = MEMSIZE`
when MEMSIZE < 2^32; the next iteration halts with out_of_bounds at the guard and changes nothing else. -/
def Obligations.MovAtTheEndOfMemory : Prop :=
  ∀ (s : State) (op : Byte), s.run = .running → s.mem.read s.pc.toNat = some op →
    lookupHandler op = .mov → s.pc.toNat + 5 = s.mem.size → s.mem.size < Config.addressSpace →
    ∃ t, step s = .next t ∧ t.run = .running ∧ t.pc.toNat = s.mem.size ∧
      step t = .next { t with run := .halted .outOfBounds }

/-! ## Halting -/

/-- R72, R109, R24: from HALTED there is no transition, so no other state is reached. That `step` answers
the fault noTransition there is the model's choice (log 1); the spec says that no transition exists. -/
def Obligations.HaltedIsTerminal : Prop :=
  ∀ (s : State) (c : HaltReason), s.run = .halted c →
    step s = .fault (.noTransition c) ∧ ∀ t, Reaches s t → t = s

/-- R127: a RUNNING machine always performs its next iteration. That a step from HALTED is a fault, and so
never a refusal, is the model's choice (log 1): the spec says only that no transition exists there (R72). -/
def Obligations.RunningAlwaysSteps : Prop :=
  ∀ s : State, (s.run = .running → ∃ t, step s = .next t) ∧ (∀ r, step s ≠ .refused r) ∧
    ∀ f, step s = .fault f → ∃ c, s.run = .halted c

/-! ## Invariants -/

/-- Every step keeps the invariant: memory stays in canonical form with MEMSIZE in its domain (D2, log 3),
and what a halt records is accurate (R17, R101, R102, R103). The second cause of out_of_bounds, a cut-off
instruction, is the spec's decision D3 (log 7). -/
def Obligations.StepKeepsInv : Prop :=
  ∀ s t : State, Inv s → step s = .next t → Inv t

/-- The invariant holds at reset, whose INIT_IP, INIT_SP and IMAGE are the model's choice (log 2). -/
def Obligations.ResetHasInv : Prop := Inv State.reset

/-- The invariant holds right after creation, for all parameters in the domain of R5 (MEMSIZE at most 2^32
is the spec's decision D2). -/
def Obligations.CreatedStateHasInv : Prop :=
  ∀ p : Config.Params, p.wf → Inv (State.create p)

/-- R40: memory, its size included (R16), is the same in every state that a run reaches. -/
def Obligations.MemoryNeverChanges : Prop :=
  ∀ s t : State, Reaches s t → t.mem.size = s.mem.size ∧ ∀ a, t.mem.read a = s.mem.read a

/-- Two memories in canonical form with the same size and the same bytes are the same data. This is about
the model's representation (log 3). -/
def Obligations.CanonicalMemoryIsUnique : Prop :=
  ∀ m m' : Memory, m.wf → m'.wf → m.size = m'.size → (∀ a, m.read a = m'.read a) → m = m'

/-- No instruction reads a register (R12): two machines that differ in their registers alone run for any
number of steps with the same program counter, memory, run state and trace pair, and each register either
still holds its own start value in both or holds one common value in both, so that nothing computed from a
register arrives anywhere. If they stop, they stop in the same way; that a run stops by the fault
noTransition, after HALTED, is the model's choice (log 1). -/
def Obligations.RegistersAreNeverRead : Prop :=
  ∀ (n : Nat) (s s' : State), s.pc = s'.pc → s.mem = s'.mem → s.run = s'.run →
    (∃ t t', Sys2Proof.core.run n s = .next t ∧ Sys2Proof.core.run n s' = .next t' ∧
      State.pc t = State.pc t' ∧ State.mem t = State.mem t' ∧ State.run t = State.run t' ∧
      trace t = trace t' ∧
      ∀ r, (readReg t r = readReg s r ∧ readReg t' r = readReg s' r) ∨ readReg t r = readReg t' r) ∨
    (∃ f, Sys2Proof.core.run n s = .fault f ∧ Sys2Proof.core.run n s' = .fault f)

/-! ## Reset -/

/-- R22, R120, R121: every field after reset as a function of the parameters. The stack-pointer register
holds INIT_SP and the seven others 0; memory holds the first `min(length(IMAGE), IMAGE_MAX, MEMSIZE)` bytes
of the image (the clamp to MEMSIZE is the spec's decision D8), zero beyond, and nothing at or above
MEMSIZE. -/
def Obligations.ResetValues : Prop :=
  ∀ p : Config.Params, p.wf →
    readReg (State.create p) .esp = p.initSp ∧
    (∀ r, r ≠ .esp → readReg (State.create p) r = 0) ∧
    (State.create p).pc = p.initIp ∧ (State.create p).run = .running ∧
    (State.create p).mem.size = p.memSize ∧
    (∀ a, a < p.memSize → (State.create p).mem.read a =
      some (if a < min p.image.length (min p.imageMax p.memSize) then p.image.getD a 0 else 0)) ∧
    ∀ a, p.memSize ≤ a → (State.create p).mem.read a = none

/-- The state the model resets to, at the reference values MEMSIZE = 1048576 and IMAGE_MAX = 512 of R5. That
INIT_IP and INIT_SP are 0 and the image is empty is the model's choice (log 2), so the zero in the
stack-pointer register, the program counter and memory rests on it. -/
def Obligations.ReferenceReset : Prop :=
  (∀ r, readReg State.reset r = 0) ∧ State.reset.pc = 0 ∧ State.reset.run = .running ∧
    State.reset.mem.size = 1048576 ∧ ∀ a, a < 1048576 → State.reset.mem.read a = some 0

/-- The model's stand-in for an image (log 4): placing the opcode table's word at the program counter of a
RUNNING machine with five bytes of memory there makes the very next step run the instruction the decoder
reads from that word, with the sentinel check after it. -/
def Obligations.PlacedWordRunsNext : Prop :=
  ∀ (s : State) (nbits w : Nat) (i : Instr), s.run = .running → s.mem.wf →
    s.pc.toNat + 5 ≤ s.mem.size → decodeTableWord nbits w = some i →
    ∃ t, exec i (s.withFetchWord nbits w) = .next t ∧
      step (s.withFetchWord nbits w) = .next (sentinelCheck t)

/-! ## Diagnostics -/

/-- R75: the trace pair is the program counter before the handler and the fetched opcode, once per iteration
that reaches the fetch; an iteration that halts at the guard, or a HALTED machine, emits nothing (the
spec's decision D15). -/
def Obligations.TraceIsPcAndOpcode : Prop :=
  ∀ s : State,
    (s.run = .running → s.pc.toNat < s.mem.size →
      ∃ op, s.mem.read s.pc.toNat = some op ∧ trace s = some (s.pc, op)) ∧
    (s.mem.size ≤ s.pc.toNat → trace s = none) ∧ (∀ c, s.run = .halted c → trace s = none)

/-- R25: whenever a fetch takes place the machine is RUNNING and `pc < MEMSIZE`; the guard enforces it: with
any other `pc` nothing is fetched and the iteration halts. -/
def Obligations.FetchIsInsideMemory : Prop :=
  ∀ s : State, (∀ pair, trace s = some pair → s.run = .running ∧ s.pc.toNat < s.mem.size) ∧
    (s.run = .running → ¬ s.pc.toNat < s.mem.size →
      trace s = none ∧ ∃ t, step s = .next t ∧ t.run = .halted .outOfBounds)

/-- R113: the register dump is nine values with stable names, the eight registers and the program counter,
and a halt reports its reason with the program counter. The names other than EAX and EBX are the spec's
choice (D14, log 8). -/
def Obligations.DiagnosticsReportTheState : Prop :=
  ∀ s : State,
    registerDump s = [("EAX", readReg s .eax), ("ECX", readReg s .ecx), ("EDX", readReg s .edx),
      ("EBX", readReg s .ebx), ("ESP", readReg s .esp), ("EBP", readReg s .ebp),
      ("ESI", readReg s .esi), ("EDI", readReg s .edi), ("pc", s.pc)] ∧
    (s.run = .running → haltReport s = none) ∧
    (∀ c, s.run = .halted c → haltReport s = some (c, s.pc))
end

