-- ==== Sys2Proof/Laws/Decode.lean ====
section
/-! SUPPORT. Small lemmas of the decoder and the encoder: the handler table by cases, the register field,
the assembly of a word from its bytes, and what decoding needs of a byte source. -/

namespace Sys2Proof

/-! ## The handler table -/

/-- An opcode byte has a handler in the table exactly when the match/mask form of R56 says so. -/
theorem lookupHandler_eq_absent_iff (op : Byte) :
    lookupHandler op = .absent ↔ opcodeImplemented op = false := by
  revert op
  decide

/-- The MOV entries are the opcodes of format OI, one for each register. -/
theorem lookupHandler_eq_mov_iff (op : Byte) :
    lookupHandler op = .mov ↔ op = movOpcode (regOfOpcode op) := by
  revert op
  decide

/-- The JMP entry is opcode 0xEB alone. -/
theorem lookupHandler_eq_jmp_iff (op : Byte) : lookupHandler op = .jmp ↔ op = 0xEB#8 := by
  revert op
  decide

@[simp] theorem lookupHandler_movOpcode (r : Reg) : lookupHandler (movOpcode r) = .mov := by
  cases r <;> decide

@[simp] theorem lookupHandler_jmpOpcode : lookupHandler 0xEB#8 = .jmp := by decide

@[simp] theorem regOfOpcode_movOpcode (r : Reg) : regOfOpcode (movOpcode r) = r := by
  cases r <;> decide

@[simp] theorem regOfCode_regCode (r : Reg) : regOfCode (regCode r) = r := by
  cases r <;> decide

/-- Registers are told apart by their index. -/
theorem regIndex_injective {r r' : Reg} (h : regIndex r = regIndex r') : r = r' := by
  revert h
  cases r <;> cases r' <;> decide

/-! ## Words and bytes -/

/-- A word is the little-endian assembly of its own bytes. -/
@[simp] theorem le32_byteOfWord (v : Word) :
    le32 (byteOfWord v 0) (byteOfWord v 1) (byteOfWord v 2) (byteOfWord v 3) = v := by
  apply BitVec.eq_of_getLsbD_eq
  intro i hi
  simp only [le32, byteOfWord, BitVec.getLsbD_or, BitVec.getLsbD_shiftLeft, BitVec.getLsbD_setWidth,
    BitVec.getLsbD_extractLsb']
  by_cases h8 : i < 8
  · simp [h8, hi, show i < 16 by omega, show i < 24 by omega]
  · by_cases h16 : i < 16
    · simp [h8, h16, hi, show i < 24 by omega, show i - 8 < 8 by omega, show i - 8 < 32 by omega,
        show 8 + (i - 8) = i by omega]
    · by_cases h24 : i < 24
      · simp [h8, h16, h24, hi, show ¬ i - 8 < 8 by omega, show i - 16 < 8 by omega,
          show i - 16 < 32 by omega, show 16 + (i - 16) = i by omega]
      · simp [h8, h16, h24, hi, show ¬ i - 8 < 8 by omega, show ¬ i - 16 < 8 by omega,
          show i - 24 < 8 by omega, show i - 24 < 32 by omega, show 24 + (i - 24) = i by omega]

/-- The bytes of a little-endian assembly are the bytes it was assembled from. -/
theorem byteOfWord_le32 (b0 b1 b2 b3 : Byte) :
    byteOfWord (le32 b0 b1 b2 b3) 0 = b0 ∧ byteOfWord (le32 b0 b1 b2 b3) 1 = b1 ∧
      byteOfWord (le32 b0 b1 b2 b3) 2 = b2 ∧ byteOfWord (le32 b0 b1 b2 b3) 3 = b3 := by
  refine ⟨?_, ?_, ?_, ?_⟩ <;>
  · apply BitVec.eq_of_getLsbD_eq
    intro i hi
    simp only [le32, byteOfWord, BitVec.getLsbD_or, BitVec.getLsbD_shiftLeft, BitVec.getLsbD_setWidth,
      BitVec.getLsbD_extractLsb']
    interval_cases i <;> simp

/-! ## Byte sources -/

/-- A four-byte read gives a word exactly when its four bytes are there, and which word. -/
theorem u32From_eq_some_iff {byte : Nat → Option Byte} {off : Nat} {v : Word} :
    u32From byte off = some v ↔ ∃ b0 b1 b2 b3, byte off = some b0 ∧ byte (off + 1) = some b1 ∧
      byte (off + 2) = some b2 ∧ byte (off + 3) = some b3 ∧ v = le32 b0 b1 b2 b3 := by
  unfold u32From
  constructor
  · intro h
    split at h
    · rename_i b0 b1 b2 b3 h0 h1 h2 h3
      exact ⟨b0, b1, b2, b3, h0, h1, h2, h3, (Option.some.inj h).symm⟩
    · simp at h
  · rintro ⟨b0, b1, b2, b3, h0, h1, h2, h3, rfl⟩
    simp [h0, h1, h2, h3]

/-- A four-byte read gives no value exactly when a byte is missing. -/
theorem u32From_eq_none_iff {byte : Nat → Option Byte} {off : Nat} :
    u32From byte off = none ↔ byte off = none ∨ byte (off + 1) = none ∨ byte (off + 2) = none ∨
      byte (off + 3) = none := by
  unfold u32From
  cases byte off <;> cases byte (off + 1) <;> cases byte (off + 2) <;> cases byte (off + 3) <;> simp

/-- Everything decoding can answer, by the opcode byte and its table entry: the one lemma to cite instead
of unfolding `decodeFrom`. -/
theorem decodeFrom_cases (byte : Nat → Option Byte) :
    (byte 0 = none ∧ decodeFrom byte = .error .noOpcode) ∨
    ∃ op, byte 0 = some op ∧
      ((lookupHandler op = .absent ∧ decodeFrom byte = .ok (.absent op)) ∨
       (lookupHandler op = .mov ∧ u32From byte 1 = none ∧ decodeFrom byte = .error (.operandMissing op)) ∨
       (∃ imm, lookupHandler op = .mov ∧ u32From byte 1 = some imm ∧
          decodeFrom byte = .ok (.mov (regOfOpcode op) imm)) ∨
       (lookupHandler op = .jmp ∧ byte 1 = none ∧ decodeFrom byte = .error (.operandMissing op)) ∨
       (∃ d, lookupHandler op = .jmp ∧ byte 1 = some d ∧ decodeFrom byte = .ok (.jmp d))) := by
  unfold decodeFrom
  cases h0 : byte 0 with
  | none => simp
  | some op =>
    refine .inr ⟨op, rfl, ?_⟩
    cases hop : lookupHandler op with
    | absent => simp [hop]
    | mov => cases hu : u32From byte 1 <;> simp [hop]
    | jmp => cases hd : byte 1 <;> simp [hop]

end Sys2Proof
end

