-- ==== Sys2Proof/Laws/Memory.lean ====
section
/-! SUPPORT. The laws of the memory: what its reads give, read after write, and that every memory operation
keeps the canonical form. -/

namespace Sys2Proof.Machine

/-! ## Reads -/

/-- A read inside the memory gives a byte. -/
theorem Memory.read_of_lt {m : Memory} {a : Nat} (h : a < m.size) : m.read a = some (cellsGet m.cells a) := by
  simp [Memory.read, h]

/-- There is no memory at or above MEMSIZE (R41). -/
theorem Memory.read_of_ge {m : Memory} {a : Nat} (h : m.size ≤ a) : m.read a = none := by
  simp [Memory.read, Nat.not_lt.mpr h]

/-- A read gives a byte exactly inside the memory. -/
theorem Memory.read_eq_none_iff {m : Memory} {a : Nat} : m.read a = none ↔ m.size ≤ a := by
  simp [Memory.read]

/-- What gives a byte is inside the memory. -/
theorem Memory.lt_of_read {m : Memory} {a : Nat} {b : Byte} (h : m.read a = some b) : a < m.size := by
  by_contra hn
  simp [Memory.read, hn] at h

/-! ## Cells -/

/-- Cells all above an address read as unlisted there. -/
theorem cellsGet_of_forall_lt {cs : List Host.Cell} {a : Nat} (h : ∀ c ∈ cs, a < c.1) :
    cellsGet cs a = unlistedByte := by
  induction cs with
  | nil => rfl
  | cons c cs ih =>
    have hc : a < c.1 := h c (by simp)
    simp only [cellsGet]
    rw [if_neg (by omega)]
    exact ih (fun d hd => h d (by simp [hd]))

/-- The written address reads as the byte written. -/
theorem cellsGet_cellsSet_same {cs : List Host.Cell} {a : Nat} {b : Byte}
    (h : cs.Pairwise (fun c d => c.1 < d.1)) : cellsGet (cellsSet cs a b) a = b := by
  induction cs with
  | nil => by_cases hb : b = unlistedByte <;> simp [cellsSet, cellsGet, hb]
  | cons c cs ih =>
    obtain ⟨k, v⟩ := c
    rw [List.pairwise_cons] at h
    simp only [cellsSet]
    split
    · rename_i hlt
      split
      · rename_i hb
        rw [hb]
        refine cellsGet_of_forall_lt (fun d hd => ?_)
        rcases List.mem_cons.mp hd with rfl | hd
        · exact hlt
        · exact Nat.lt_trans hlt (h.1 d hd)
      · simp [cellsGet]
    · split
      · rename_i heq
        subst heq
        split
        · rename_i hb
          rw [hb]
          exact cellsGet_of_forall_lt h.1
        · simp [cellsGet]
      · rename_i hne
        simp only [cellsGet]
        rw [if_neg (fun h => hne h.symm)]
        exact ih h.2

/-- Every other address reads as before. -/
theorem cellsGet_cellsSet_other {cs : List Host.Cell} {a a' : Nat} {b : Byte}
    (h : cs.Pairwise (fun c d => c.1 < d.1)) (ha : a' ≠ a) :
    cellsGet (cellsSet cs a b) a' = cellsGet cs a' := by
  induction cs with
  | nil => by_cases hb : b = unlistedByte <;> simp [cellsSet, cellsGet, hb, Ne.symm ha]
  | cons c cs ih =>
    obtain ⟨k, v⟩ := c
    rw [List.pairwise_cons] at h
    simp only [cellsSet]
    split
    · split
      · rfl
      · simp [cellsGet, Ne.symm ha]
    · split
      · rename_i heq
        subst heq
        split <;> simp [cellsGet, Ne.symm ha]
      · simp only [cellsGet]
        split
        · rfl
        · exact ih h.2

/-- The cells after a write are old cells or the cell written, and that one only if it is not the byte of
unlisted addresses. -/
theorem mem_cellsSet {cs : List Host.Cell} {a : Nat} {b : Byte} {c : Host.Cell}
    (h : c ∈ cellsSet cs a b) : c ∈ cs ∨ (c = (a, b) ∧ b ≠ unlistedByte) := by
  induction cs with
  | nil =>
    by_cases hb : b = unlistedByte
    · simp [cellsSet, hb] at h
    · simp only [cellsSet, if_neg hb, List.mem_singleton] at h
      exact .inr ⟨h, hb⟩
  | cons d cs ih =>
    obtain ⟨k, v⟩ := d
    simp only [cellsSet] at h
    split at h
    · split at h
      · exact .inl h
      · rename_i hb
        rcases List.mem_cons.mp h with h | h
        · exact .inr ⟨h, hb⟩
        · exact .inl h
    · split at h
      · split at h
        · exact .inl (List.mem_cons_of_mem _ h)
        · rename_i hb
          rcases List.mem_cons.mp h with h | h
          · exact .inr ⟨h, hb⟩
          · exact .inl (List.mem_cons_of_mem _ h)
      · rcases List.mem_cons.mp h with h | h
        · exact .inl (h ▸ List.mem_cons_self)
        · exact (ih h).imp (List.mem_cons_of_mem _) id

/-- A write keeps the addresses strictly rising. -/
theorem cellsSet_rising {cs : List Host.Cell} {a : Nat} {b : Byte}
    (h : cs.Pairwise (fun c d => c.1 < d.1)) : (cellsSet cs a b).Pairwise (fun c d => c.1 < d.1) := by
  induction cs with
  | nil => by_cases hb : b = unlistedByte <;> simp [cellsSet, hb]
  | cons c cs ih =>
    obtain ⟨k, v⟩ := c
    have hcons := List.pairwise_cons.mp h
    simp only [cellsSet]
    split
    · rename_i hlt
      split
      · exact h
      · refine List.pairwise_cons.mpr ⟨fun d hd => ?_, h⟩
        rcases List.mem_cons.mp hd with rfl | hd
        · exact hlt
        · exact Nat.lt_trans hlt (hcons.1 d hd)
    · rename_i hnlt
      split
      · rename_i heq
        subst heq
        split
        · exact hcons.2
        · exact List.pairwise_cons.mpr ⟨hcons.1, hcons.2⟩
      · rename_i hne
        refine List.pairwise_cons.mpr ⟨fun d hd => ?_, ih hcons.2⟩
        rcases mem_cellsSet hd with hd | ⟨rfl, -⟩
        · exact hcons.1 d hd
        · show k < a
          omega

/-! ## Writes -/

@[simp] theorem Memory.write_size (m : Memory) (a : Nat) (b : Byte) : (m.write a b).size = m.size := by
  unfold Memory.write
  split <;> rfl

@[simp] theorem Memory.writeBytes_size (m : Memory) (a : Nat) (bs : List Byte) :
    (m.writeBytes a bs).size = m.size := by
  induction bs generalizing m a with
  | nil => rfl
  | cons b bs ih => simp [Memory.writeBytes, ih]

/-- Read after write, at the written address. -/
theorem Memory.read_write_same {m : Memory} {a : Nat} {b : Byte} (hm : m.wf) (h : a < m.size) :
    (m.write a b).read a = some b := by
  simp [Memory.read, Memory.write, h, cellsGet_cellsSet_same hm.2.1]

/-- Read after write, at any other address. -/
theorem Memory.read_write_other {m : Memory} {a a' : Nat} {b : Byte} (hm : m.wf) (h : a' ≠ a) :
    (m.write a b).read a' = m.read a' := by
  unfold Memory.write
  split
  · simp [Memory.read, cellsGet_cellsSet_other hm.2.1 h]
  · rfl

/-- A write keeps the canonical form. -/
theorem Memory.write_wf {m : Memory} (hm : m.wf) (a : Nat) (b : Byte) : (m.write a b).wf := by
  unfold Memory.write
  split
  · rename_i ha
    refine ⟨hm.1, cellsSet_rising hm.2.1, fun c hc => ?_⟩
    rcases mem_cellsSet hc with hc | ⟨rfl, hb⟩
    · exact hm.2.2 c hc
    · exact ⟨ha, hb⟩
  · exact hm

/-- Writing several bytes keeps the canonical form. -/
theorem Memory.writeBytes_wf {m : Memory} (hm : m.wf) (a : Nat) (bs : List Byte) :
    (m.writeBytes a bs).wf := by
  induction bs generalizing m a with
  | nil => exact hm
  | cons b bs ih => exact ih (Memory.write_wf hm a b) (a + 1)

/-- A memory of zeros has the canonical form when its size is in the domain. -/
theorem Memory.zeroed_wf {n : Nat} (h : n ≤ Config.addressSpace) : (Memory.zeroed n).wf :=
  ⟨h, by simp [Memory.zeroed], by simp [Memory.zeroed]⟩

/-- The memory after the image load has the canonical form when MEMSIZE is in its domain. -/
theorem Memory.loaded_wf {p : Config.Params} (h : p.wf) : (Memory.loaded p).wf :=
  Memory.writeBytes_wf (Memory.zeroed_wf h) 0 _

/-- Writing several bytes leaves an address below them alone. -/
theorem Memory.read_writeBytes_below {m : Memory} (hm : m.wf) {a a' : Nat} (bs : List Byte) (h : a' < a) :
    (m.writeBytes a bs).read a' = m.read a' := by
  induction bs generalizing m a with
  | nil => rfl
  | cons b bs ih =>
    rw [Memory.writeBytes, ih (Memory.write_wf hm a b) (by omega), Memory.read_write_other hm (by omega)]

/-- Reading after writing several bytes that fit: inside them the byte written, elsewhere as before. -/
theorem Memory.read_writeBytes {m : Memory} (hm : m.wf) (a : Nat) (bs : List Byte) (a' : Nat)
    (hfit : a + bs.length ≤ m.size) :
    (m.writeBytes a bs).read a' =
      if a ≤ a' ∧ a' < a + bs.length then bs[a' - a]? else m.read a' := by
  induction bs generalizing m a with
  | nil =>
    rw [Memory.writeBytes, if_neg]
    simp
  | cons b bs ih =>
    simp only [List.length_cons] at hfit ⊢
    rw [Memory.writeBytes]
    by_cases h0 : a' = a
    · subst h0
      rw [Memory.read_writeBytes_below (Memory.write_wf hm _ b) bs (by omega),
        Memory.read_write_same hm (by omega), if_pos ⟨Nat.le_refl _, by omega⟩]
      simp
    · rw [ih (Memory.write_wf hm a b) (a + 1) (by simp; omega), Memory.read_write_other hm h0]
      by_cases h1 : a + 1 ≤ a' ∧ a' < a + 1 + bs.length
      · rw [if_pos h1, if_pos (by omega), show a' - a = (a' - (a + 1)) + 1 by omega]
        simp
      · rw [if_neg h1, if_neg (by omega)]

end Sys2Proof.Machine
end

