-- ==== Sys2Proof/Laws/State.lean ====
section
/-! SUPPORT. One lemma per field per update of the state, each true by unfolding, so that no later proof
unfolds a record update; and reading a register after an update. -/

namespace Sys2Proof.Machine

/-! ## `writeReg` -/

@[simp] theorem writeReg_pc (s : State) (r : Reg) (v : Word) : (writeReg s r v).pc = s.pc := rfl
@[simp] theorem writeReg_mem (s : State) (r : Reg) (v : Word) : (writeReg s r v).mem = s.mem := rfl
@[simp] theorem writeReg_run (s : State) (r : Reg) (v : Word) : (writeReg s r v).run = s.run := rfl
@[simp] theorem writeReg_regs (s : State) (r : Reg) (v : Word) :
    (writeReg s r v).regs = s.regs.set r v := rfl

/-- A written register reads as the value written (R12). -/
@[simp] theorem readReg_writeReg_same (s : State) (r : Reg) (v : Word) :
    readReg (writeReg s r v) r = v := by
  cases r <;> rfl

/-- Writing one register leaves the others alone (R12: no aliasing). -/
theorem readReg_writeReg_other (s : State) (r r' : Reg) (v : Word) (h : r' ≠ r) :
    readReg (writeReg s r v) r' = readReg s r' := by
  cases r <;> cases r' <;> first | rfl | exact absurd rfl h

/-! ## `setPc` -/

@[simp] theorem setPc_regs (s : State) (v : Word) : (setPc s v).regs = s.regs := rfl
@[simp] theorem setPc_pc (s : State) (v : Word) : (setPc s v).pc = v := rfl
@[simp] theorem setPc_mem (s : State) (v : Word) : (setPc s v).mem = s.mem := rfl
@[simp] theorem setPc_run (s : State) (v : Word) : (setPc s v).run = s.run := rfl
@[simp] theorem readReg_setPc (s : State) (v : Word) (r : Reg) : readReg (setPc s v) r = readReg s r := by
  cases r <;> rfl

/-! ## `halt` and the two raises -/

@[simp] theorem halt_regs (c : HaltReason) (s : State) : (halt c s).regs = s.regs := rfl
@[simp] theorem halt_pc (c : HaltReason) (s : State) : (halt c s).pc = s.pc := rfl
@[simp] theorem halt_mem (c : HaltReason) (s : State) : (halt c s).mem = s.mem := rfl
@[simp] theorem halt_run (c : HaltReason) (s : State) : (halt c s).run = .halted c := rfl
@[simp] theorem readReg_halt (c : HaltReason) (s : State) (r : Reg) :
    readReg (halt c s) r = readReg s r := by
  cases r <;> rfl

@[simp] theorem raiseOutOfBounds_regs (s : State) : (raiseOutOfBounds s).regs = s.regs := rfl
@[simp] theorem raiseOutOfBounds_pc (s : State) : (raiseOutOfBounds s).pc = s.pc := rfl
@[simp] theorem raiseOutOfBounds_mem (s : State) : (raiseOutOfBounds s).mem = s.mem := rfl
@[simp] theorem raiseOutOfBounds_run (s : State) : (raiseOutOfBounds s).run = .halted .outOfBounds := rfl
@[simp] theorem readReg_raiseOutOfBounds (s : State) (r : Reg) :
    readReg (raiseOutOfBounds s) r = readReg s r := by
  cases r <;> rfl

@[simp] theorem raiseUnimplemented_regs (op : Byte) (s : State) :
    (raiseUnimplemented op s).regs = s.regs := rfl
@[simp] theorem raiseUnimplemented_pc (op : Byte) (s : State) : (raiseUnimplemented op s).pc = s.pc := rfl
@[simp] theorem raiseUnimplemented_mem (op : Byte) (s : State) :
    (raiseUnimplemented op s).mem = s.mem := rfl
@[simp] theorem raiseUnimplemented_run (op : Byte) (s : State) :
    (raiseUnimplemented op s).run = .halted (.unimplementedOpcode op) := rfl
@[simp] theorem readReg_raiseUnimplemented (op : Byte) (s : State) (r : Reg) :
    readReg (raiseUnimplemented op s) r = readReg s r := by
  cases r <;> rfl

/-! ## `placeAtPc` and `State.create` -/

@[simp] theorem placeAtPc_regs (s : State) (bs : List Byte) : (placeAtPc s bs).regs = s.regs := rfl
@[simp] theorem placeAtPc_pc (s : State) (bs : List Byte) : (placeAtPc s bs).pc = s.pc := rfl
@[simp] theorem placeAtPc_run (s : State) (bs : List Byte) : (placeAtPc s bs).run = s.run := rfl
@[simp] theorem placeAtPc_mem (s : State) (bs : List Byte) :
    (placeAtPc s bs).mem = s.mem.writeBytes s.pc.toNat bs := rfl

@[simp] theorem create_regs (p : Config.Params) :
    (State.create p).regs = RegFile.initial p.initSp := rfl
@[simp] theorem create_pc (p : Config.Params) : (State.create p).pc = p.initIp := rfl
@[simp] theorem create_mem (p : Config.Params) : (State.create p).mem = Memory.loaded p := rfl
@[simp] theorem create_run (p : Config.Params) : (State.create p).run = .running := rfl

end Sys2Proof.Machine
end

