-- ==== Sys2Proof/Laws/Ops.lean ====
section
/-! SUPPORT. One lemma per shared operation of the machine that says everything it can do, for proofs to
cite instead of unfolding the operation. -/

namespace Sys2Proof.Machine

/-! ## Reads at the program counter -/

/-- A byte read gives no value exactly at or above MEMSIZE (R36). -/
theorem readU8_eq_none_iff (s : State) (off : Nat) : readU8 s off = none ↔ s.mem.size ≤ s.pc.toNat + off :=
  Memory.read_eq_none_iff

/-- A byte that is read lies in memory. -/
theorem lt_of_readU8 {s : State} {off : Nat} {b : Byte} (h : readU8 s off = some b) :
    s.pc.toNat + off < s.mem.size :=
  Memory.lt_of_read h

/-- A four-byte read gives no value exactly when its last byte is outside memory (R36). -/
theorem readU32_eq_none_iff (s : State) (off : Nat) :
    u32From (readU8 s) off = none ↔ s.mem.size < s.pc.toNat + off + 4 := by
  rw [u32From_eq_none_iff]
  simp only [readU8_eq_none_iff]
  omega

/-- The guard of step 1 as an inequality (R67). -/
theorem fetchable_iff (s : State) : fetchable s = true ↔ s.pc.toNat < s.mem.size := by
  simp [fetchable]

/-- The operand bound as an inequality (R81, R89). -/
theorem bytesInMemory_iff (s : State) (n : Nat) :
    bytesInMemory s n = true ↔ s.pc.toNat + n ≤ s.mem.size := by
  simp [bytesInMemory]

/-! ## The shared operations -/

/-- An instruction whose bytes lie in memory has its whole effect. -/
theorem withOperands_of_le {n : Nat} {s : State} (effect : State → State)
    (h : s.pc.toNat + n ≤ s.mem.size) : withOperands n effect s = .next (effect s) := by
  rw [withOperands, if_pos ((bytesInMemory_iff s n).mpr h)]

/-- An instruction cut off by the end of memory raises OutOfBounds and does nothing else. -/
theorem withOperands_of_gt {n : Nat} {s : State} (effect : State → State)
    (h : s.mem.size < s.pc.toNat + n) : withOperands n effect s = .next (raiseOutOfBounds s) := by
  rw [withOperands, if_neg]
  rw [bytesInMemory_iff]
  omega

/-- Everything the sentinel check can do: halt with program_end where a completed handler left `pc = 0`,
and nothing otherwise. -/
theorem sentinelCheck_cases (s : State) :
    (s.run = .running ∧ s.pc = 0 ∧ sentinelCheck s = halt .programEnd s) ∨
    (s.run = .running ∧ s.pc ≠ 0 ∧ sentinelCheck s = s) ∨
    (∃ c, s.run = .halted c ∧ sentinelCheck s = s) := by
  unfold sentinelCheck
  cases hr : s.run with
  | running =>
    by_cases hp : s.pc = 0
    · exact .inl ⟨rfl, hp, if_pos hp⟩
    · exact .inr (.inl ⟨rfl, hp, if_neg hp⟩)
  | halted c => exact .inr (.inr ⟨c, rfl, rfl⟩)

/-- The sentinel check changes `run` alone. -/
@[simp] theorem sentinelCheck_regs (s : State) : (sentinelCheck s).regs = s.regs := by
  obtain ⟨_, _, h⟩ | ⟨_, _, h⟩ | ⟨_, _, h⟩ := sentinelCheck_cases s <;> simp [h]
@[simp] theorem sentinelCheck_pc (s : State) : (sentinelCheck s).pc = s.pc := by
  obtain ⟨_, _, h⟩ | ⟨_, _, h⟩ | ⟨_, _, h⟩ := sentinelCheck_cases s <;> simp [h]
@[simp] theorem sentinelCheck_mem (s : State) : (sentinelCheck s).mem = s.mem := by
  obtain ⟨_, _, h⟩ | ⟨_, _, h⟩ | ⟨_, _, h⟩ := sentinelCheck_cases s <;> simp [h]

@[simp] theorem readReg_sentinelCheck (s : State) (r : Reg) :
    readReg (sentinelCheck s) r = readReg s r := by
  cases r <;> simp [readReg]

/-- The run state after the sentinel check of a completed handler. -/
theorem sentinelCheck_run_of_running {s : State} (h : s.run = .running) :
    (sentinelCheck s).run = if s.pc = 0 then .halted .programEnd else .running := by
  rcases sentinelCheck_cases s with ⟨_, hp, hs⟩ | ⟨_, hp, hs⟩ | ⟨c, hc, _⟩
  · rw [hs, if_pos hp]
    rfl
  · rw [hs, if_neg hp, h]
  · simp [h] at hc

/-- The straight-line advance as an addition of 32-bit words. -/
theorem pcAfter_eq_add (s : State) (n : Nat) : pcAfter s n = s.pc + BitVec.ofNat 32 n := by
  apply BitVec.eq_of_toNat_eq
  rw [pcAfter, wrap32, BitVec.toNat_ofInt, BitVec.toNat_add, BitVec.toNat_ofNat]
  omega

/-! ## One iteration -/

/-- Everything one step can do (R66): no transition from HALTED; the guard's halt; the halt of an
instruction cut off by the end of memory; an absent opcode's halt; a completed MOV; a completed JMP. The
last two are followed by the sentinel check. -/
theorem step_cases (s : State) :
    (∃ c, s.run = .halted c ∧ step s = .fault (.noTransition c)) ∨
    (s.run = .running ∧ s.mem.size ≤ s.pc.toNat ∧ step s = .next (raiseOutOfBounds s)) ∨
    (∃ op, s.run = .running ∧ readU8 s 0 = some op ∧
      s.mem.size < s.pc.toNat + handlerLength (lookupHandler op) ∧
      step s = .next (raiseOutOfBounds s)) ∨
    (∃ op, s.run = .running ∧ readU8 s 0 = some op ∧ lookupHandler op = .absent ∧
      fetch s = .ok (.absent op) ∧ step s = .next (raiseUnimplemented op s)) ∨
    (∃ op imm, s.run = .running ∧ readU8 s 0 = some op ∧ lookupHandler op = .mov ∧
      readU32 s 1 = some imm ∧ s.pc.toNat + 5 ≤ s.mem.size ∧
      fetch s = .ok (.mov (regOfOpcode op) imm) ∧
      step s = .next (sentinelCheck (setPc (writeReg s (regOfOpcode op) imm) (pcAfter s 5)))) ∨
    (∃ op d, s.run = .running ∧ readU8 s 0 = some op ∧ lookupHandler op = .jmp ∧
      readU8 s 1 = some d ∧ s.pc.toNat + 2 ≤ s.mem.size ∧ fetch s = .ok (.jmp d) ∧
      step s = .next (sentinelCheck (setPc s (jumpTarget d)))) := by
  cases hr : s.run with
  | halted c => exact .inl ⟨c, rfl, by simp [step, iteration, hr]⟩
  | running =>
    refine .inr ?_
    by_cases hf : s.pc.toNat < s.mem.size
    · have hfb := (fetchable_iff s).mpr hf
      refine .inr ?_
      rcases decodeFrom_cases (readU8 s) with ⟨h0, -⟩ | ⟨op, h0, h⟩
      · exact absurd ((readU8_eq_none_iff s 0).mp h0) (by omega)
      · rcases h with ⟨hl, hd⟩ | ⟨hl, hu, hd⟩ | ⟨imm, hl, hu, hd⟩ | ⟨hl, hu, hd⟩ | ⟨d, hl, hu, hd⟩
        · refine .inr (.inl ⟨op, rfl, h0, hl, hd, ?_⟩)
          simp [step, iteration, hr, hfb, fetch, hd, exec, execAbsent, afterHandler, sentinelCheck]
        · refine .inl ⟨op, rfl, h0, ?_, ?_⟩
          · have := (readU32_eq_none_iff s 1).mp hu
            simp only [hl, handlerLength]
            omega
          · simp [step, iteration, hr, hfb, fetch, hd]
        · have hle : s.pc.toNat + 5 ≤ s.mem.size := by
            by_contra hn
            rw [(readU32_eq_none_iff s 1).mpr (by omega)] at hu
            simp at hu
          refine .inr (.inr (.inl ⟨op, imm, rfl, h0, hl, hu, hle, hd, ?_⟩))
          simp [step, iteration, hr, hfb, fetch, hd, exec, execMov, withOperands_of_le _ hle, afterHandler]
        · refine .inl ⟨op, rfl, h0, ?_, ?_⟩
          · have := (readU8_eq_none_iff s 1).mp hu
            simp only [hl, handlerLength]
            omega
          · simp [step, iteration, hr, hfb, fetch, hd]
        · have hle : s.pc.toNat + 2 ≤ s.mem.size := by
            have := lt_of_readU8 hu
            omega
          refine .inr (.inr (.inr ⟨op, d, rfl, h0, hl, hu, hle, hd, ?_⟩))
          simp [step, iteration, hr, hfb, fetch, hd, exec, execJmp, withOperands_of_le _ hle, afterHandler]
    · refine .inl ⟨rfl, by omega, ?_⟩
      have : fetchable s = false := by
        rw [Bool.eq_false_iff, ne_eq, fetchable_iff]
        exact hf
      simp [step, iteration, hr, this]

/-- Reset's memory is in canonical form. -/
theorem reset_mem_wf : State.reset.mem.wf :=
  Memory.loaded_wf (by decide)

/-- Placing an instruction's bytes keeps memory's canonical form. -/
theorem placeAtPc_mem_wf {s : State} (h : s.mem.wf) (bs : List Byte) : (placeAtPc s bs).mem.wf :=
  Memory.writeBytes_wf h _ _

end Sys2Proof.Machine
end

