-- ==== Sys2Proof/Laws/PerInstr.lean ====
section
/-! SUPPORT. Statements made once per constructor of `Instr`. -/

/-- The shape of an instruction's encoding: it has the instruction's length (R59), and its first byte is the
opcode byte, which alone selects the instruction's table entry (R50). -/
def Sys2Proof.Laws.EncodingShape.Statement (i : Sys2Proof.Instr) : Prop :=
  (Sys2Proof.encode i).length = Sys2Proof.instrLength i ∧
    (Sys2Proof.WellFormed i = true → ∃ op operands, Sys2Proof.encode i = op :: operands ∧
      Sys2Proof.lookupHandler op = Sys2Proof.handlerOf i)

theorem Sys2Proof.Laws.EncodingShape.mov (r : Sys2Proof.Reg) (imm : Sys2Proof.Word) :
    Sys2Proof.Laws.EncodingShape.Statement (.mov r imm) :=
  ⟨rfl, fun _ => ⟨_, _, rfl, Sys2Proof.lookupHandler_movOpcode r⟩⟩

theorem Sys2Proof.Laws.EncodingShape.jmp (d : Sys2Proof.Byte) :
    Sys2Proof.Laws.EncodingShape.Statement (.jmp d) :=
  ⟨rfl, fun _ => ⟨_, _, rfl, Sys2Proof.lookupHandler_jmpOpcode⟩⟩

theorem Sys2Proof.Laws.EncodingShape.absent (op : Sys2Proof.Byte) :
    Sys2Proof.Laws.EncodingShape.Statement (.absent op) :=
  ⟨rfl, fun h => ⟨_, _, rfl, (Sys2Proof.lookupHandler_eq_absent_iff op).mpr (by simpa [Sys2Proof.WellFormed] using h)⟩⟩
end

