-- ==== Sys2Proof/Laws/Run.lean ====
section
/-! SUPPORT. The equations of `Host.Core.run` at this machine, so that no proof unfolds it, and the two ways
to build a `Reaches`. -/

namespace Sys2Proof.Machine

/-- A run whose first step answers a state goes on from there. -/
theorem coreRun_succ_of_next (M : Host.Core) {s t : M.State} (n : Nat) (h : M.step s = .next t) :
    M.run (n + 1) s = M.run n t := by
  simp only [Host.Core.run, h]

/-- A run whose first step faults ends there. -/
theorem coreRun_succ_of_fault (M : Host.Core) {s : M.State} {f : M.Fault} (n : Nat)
    (h : M.step s = .fault f) : M.run (n + 1) s = .fault f := by
  simp only [Host.Core.run, h]

@[simp] theorem run_zero (s : State) : Sys2Proof.core.run 0 s = .next s := rfl

/-- `coreRun_succ_of_next` at this machine. -/
theorem run_succ_of_next {s t : State} (n : Nat) (h : step s = .next t) :
    Sys2Proof.core.run (n + 1) s = Sys2Proof.core.run n t :=
  coreRun_succ_of_next Sys2Proof.core n h

/-- `coreRun_succ_of_fault` at this machine. -/
theorem run_succ_of_fault {s : State} {f : Fault} (n : Nat) (h : step s = .fault f) :
    Sys2Proof.core.run (n + 1) s = .fault f :=
  coreRun_succ_of_fault Sys2Proof.core n h

/-- A step put before a reached state. -/
theorem Reaches.head {s t u : State} (h : step s = .next t) (hr : Reaches t u) : Reaches s u := by
  induction hr with
  | refl => exact .tail (.refl s) h
  | tail _ hs ih => exact .tail ih hs

end Sys2Proof.Machine
end

