-- ==== Sys2Proof/Tests/Slice0.lean ====
section
/-! SUPPORT. The model's own tests. Expected results come from spec/95_test_vectors.md (the vector is named in
each docstring) or are worked out by hand from the rule named there. After the tests, for every statement
with hypotheses, a witness: concrete states and operands that meet them, at the boundary of each clause. -/

namespace Sys2Proof.Tests

open Sys2Proof Sys2Proof.Machine

/-- A RUNNING machine with the given memory size, program counter and bytes standing at an address; every
register holds 7. -/
def mk (size : Nat) (pc : Word) (at_ : Nat) (bytes : List Byte) : State :=
  { regs := { eax := 7, ecx := 7, edx := 7, ebx := 7, esp := 7, ebp := 7, esi := 7, edi := 7 }
    pc := pc
    mem := (Memory.zeroed size).writeBytes at_ bytes
    run := .running }

/-- The next state of a step, if it answers one. -/
def next? (o : Host.Outcome State Fault Refusal) : Option State :=
  match o with
  | .next t => some t
  | .fault _ => none
  | .refused _ => none

/-- What a step leaves in the run state and the program counter. -/
def runPc (s : State) : Option (RunState × Word) := (next? (step s)).map (fun t => (t.run, t.pc))

/-! ## Well-formedness: a term refused for each check -/

/-- R56: 0xB8, 0xBF and 0xEB have handlers, so they are no absent opcodes. -/
theorem test_wellFormed_refuses_implemented_opcodes :
    WellFormed (.absent 0xB8#8) = false ∧ WellFormed (.absent 0xBF#8) = false ∧
      WellFormed (.absent 0xEB#8) = false := by decide

/-! ## Decoding: words written out bit by bit from R51, R52 and R57 -/

/-- V-MOV row 4: `10111 011`, then 2C 00 00 00. -/
theorem test_decode_mov_bits :
    decode [0b10111011#8, 0b00101100#8, 0b00000000#8, 0b00000000#8, 0b00000000#8] =
      .ok (.mov .ebx 0x0000002C#32, []) := by rfl

/-- V-MOV row 1: the immediate is little-endian, and the bytes left over stay. -/
theorem test_decode_mov_little_endian :
    decode [0b10111000#8, 0x78#8, 0x56#8, 0x34#8, 0x12#8, 0xEB#8] =
      .ok (.mov .eax 0x12345678#32, [0xEB#8]) := by rfl

/-- V-JMP row 8: `11101011`, then FE. -/
theorem test_decode_jmp_bits :
    decode [0b11101011#8, 0b11111110#8] = .ok (.jmp 0xFE#8, []) := by rfl

/-- V-DEC: 0x90 and 0xF4 have no handler; no operand byte is consumed. -/
theorem test_decode_absent_bits :
    decode [0b10010000#8, 0xB8#8] = .ok (.absent 0x90#8, [0xB8#8]) ∧
      decode [0b11110100#8] = .ok (.absent 0xF4#8, []) := by constructor <;> rfl

/-- V-DEC: the neighbours of the implemented ranges are absent, the ends of the ranges are not. -/
theorem test_lookup_at_the_edges :
    lookupHandler 0xB7#8 = .absent ∧ lookupHandler 0xB8#8 = .mov ∧ lookupHandler 0xBF#8 = .mov ∧
      lookupHandler 0xC0#8 = .absent ∧ lookupHandler 0xEA#8 = .absent ∧ lookupHandler 0xEB#8 = .jmp ∧
      lookupHandler 0xEC#8 = .absent := by decide

/-- The opcode table's numbering: the first byte is the least significant. -/
theorem test_decodeTableWord :
    decodeTableWord 40 0x12345678B9 = some (.mov .ecx 0x12345678#32) ∧
      decodeTableWord 16 0xFEEB = some (.jmp 0xFE#8) ∧ decodeTableWord 8 0xF4 = some (.absent 0xF4#8) ∧
      decodeTableWord 8 0xBF = some (.mov .edi 0#32) := by decide

/-- R62: `B8+r i0 i1 i2 i3`. -/
theorem test_encode_mov :
    encode (.mov .edi 0x80000001#32) = [0xBF#8, 0x01#8, 0x00#8, 0x00#8, 0x80#8] := by decide

/-! ## The Byte Decoder -/

/-- V-BD: MEMSIZE = 6, memory `EB FE 78 56 34 12`. -/
theorem test_byte_decoder :
    let s := mk 6 0 0 [0xEB#8, 0xFE#8, 0x78#8, 0x56#8, 0x34#8, 0x12#8]
    readU8 s 1 = some 0xFE#8 ∧ readI8 s 1 = some (-2) ∧ readI8 s 0 = some (-21) ∧
      readU32 s 2 = some 0x12345678#32 ∧ readU32 s 1 = some 0x345678FE#32 ∧
      readU32 s 3 = none ∧ readU8 s 6 = none := by decide

/-! ## The instructions -/

/-- V-MOV row 5: `BC 00 00 00 80` writes the stack-pointer register alone; pc 5. -/
theorem test_mov_writes_one_register :
    next? (step (mk 1048576 0 0 [0xBC#8, 0x00#8, 0x00#8, 0x00#8, 0x80#8])) =
      some { writeReg (mk 1048576 5 0 [0xBC#8, 0x00#8, 0x00#8, 0x00#8, 0x80#8]) .esp 0x80000000#32 with
        run := .running } := by decide

/-- V-MOV last row: at 0xFFFFFFFB with MEMSIZE = 2^32 the program counter wraps to 0 and the run ends, the
register written. -/
theorem test_mov_wraps_to_program_end :
    let t := next? (step (mk 4294967296 0xFFFFFFFB#32 0xFFFFFFFB [0xB8#8, 0x01#8]))
    t.map (fun t => (t.run, t.pc, readReg t .eax)) = some (.halted .programEnd, 0#32, 1#32) := by decide

/-- V-JMP row 3: `EB 0A` at 5 goes to 12, where a relative jump would go to 17. -/
theorem test_jmp_is_absolute : runPc (mk 1048576 5 5 [0xEB#8, 0x0A#8]) = some (.running, 12#32) := by decide

/-- V-JMP rows 8 and 11: `EB FE` ends the run; `EB 80` goes to 0xFFFFFF82. -/
theorem test_jmp_negative :
    runPc (mk 1048576 5 5 [0xEB#8, 0xFE#8]) = some (.halted .programEnd, 0#32) ∧
      runPc (mk 1048576 0 0 [0xEB#8, 0x80#8]) = some (.running, 0xFFFFFF82#32) := by decide

/-- V-LOOP row 4: an absent opcode in the last byte of memory is unimplemented, not out of bounds. -/
theorem test_absent_in_the_last_byte :
    runPc (mk 16 15 0 []) = some (.halted (.unimplementedOpcode 0x00#8), 15#32) := by decide

/-! ## The loop -/

/-- V-LOOP rows 1, 3, 5 and 6: the guard at pc = MEMSIZE, an empty memory, and cut-off operands. -/
theorem test_out_of_bounds :
    runPc (mk 16 16 0 []) = some (.halted .outOfBounds, 16#32) ∧
      runPc (mk 0 0 0 []) = some (.halted .outOfBounds, 0#32) ∧
      runPc (mk 16 15 15 [0xEB#8]) = some (.halted .outOfBounds, 15#32) ∧
      runPc (mk 16 12 12 [0xB8#8, 0x01#8, 0x02#8, 0x03#8]) = some (.halted .outOfBounds, 12#32) := by decide

/-- V-LOOP row 8: reset with an empty image halts at once on 0x00, although pc = 0. -/
theorem test_reset_halts_on_zero_fill :
    runPc State.reset = some (.halted (.unimplementedOpcode 0x00#8), 0#32) := by decide

/-- Scenario A (S1): two iterations, one executed instruction; trace pairs (0, 0xB8) and (5, 0x00). -/
theorem test_scenario_A_counts :
    let s := State.create { Config.reference with image := [0xB8#8, 0x00#8, 0x00#8, 0x00#8, 0x00#8] }
    iterationCount 9 s = 2 ∧ executedCount 9 s = 1 ∧ trace s = some (0#32, 0xB8#8) := by decide

/-- V-RST rows 2 and 4: INIT_SP and INIT_IP reach their registers; an image longer than memory is cut. -/
theorem test_create :
    let s := State.create ⟨1048576, 0x7C00#32, 0x7C00#32, [], 512⟩
    let t := State.create ⟨4, 0#32, 0#32, [0xB8#8, 0x01#8, 0x02#8, 0x03#8, 0x04#8, 0x05#8], 512⟩
    readReg s .esp = 0x7C00#32 ∧ s.pc = 0x7C00#32 ∧ readReg s .ebp = 0#32 ∧
      t.mem.read 3 = some 0x03#8 ∧ t.mem.read 4 = none := by decide

/-- V-RST row 3 with IMAGE_MAX = 2 in place of 512: bytes from IMAGE_MAX on are dropped. -/
theorem test_image_is_cut_at_image_max :
    (Memory.loaded ⟨1048576, 0#32, 0#32, [0xAA#8, 0xAA#8, 0xAA#8], 2⟩).read 1 = some 0xAA#8 ∧
      (Memory.loaded ⟨1048576, 0#32, 0#32, [0xAA#8, 0xAA#8, 0xAA#8], 2⟩).read 2 = some 0x00#8 := by decide

/-- The instruction placed at reset's program counter is the one the next step runs (log 4). -/
theorem test_withFetchWord_runs :
    (next? (step (State.reset.withFetchWord 40 0x12345678B9))).map (fun t => (readReg t .ecx, t.pc)) =
        some (0x12345678#32, 5#32) ∧
      runPc (State.reset.withFetchWord 16 0x05EB) = some (.running, 7#32) ∧
      runPc (State.reset.withFetchWord 8 0xF4) = some (.halted (.unimplementedOpcode 0xF4#8), 0#32) := by
  decide

/-- Memory keeps its canonical form: writing zero removes the cell. -/
theorem test_memory_write_zero_removes_cell :
    ((Memory.zeroed 8).write 3 0x11#8).write 3 0x00#8 = Memory.zeroed 8 := by decide

/-! ## Witnesses: the hypotheses of each statement are met -/

/-- DecodeEncodeRoundTrip: well-formed terms, absent opcodes at every edge of their ranges. -/
theorem witness_DecodeEncodeRoundTrip :
    WellFormed (.mov .edi 0xFFFFFFFF#32) = true ∧ WellFormed (.jmp 0xFF#8) = true ∧
      WellFormed (.absent 0x00#8) = true ∧ WellFormed (.absent 0xB7#8) = true ∧
      WellFormed (.absent 0xC0#8) = true ∧ WellFormed (.absent 0xEA#8) = true ∧
      WellFormed (.absent 0xEC#8) = true ∧ WellFormed (.absent 0xFF#8) = true := by decide

/-- DecodedBytesAreTheEncoding: bytes that decode, with bytes left over. -/
theorem witness_DecodedBytesAreTheEncoding :
    decode [0xBF#8, 0xFF#8, 0xFF#8, 0xFF#8, 0xFF#8, 0x00#8] = .ok (.mov .edi 0xFFFFFFFF#32, [0x00#8]) := by
  rfl

/-- DecodeRefusesOnlyMissingBytes: exactly enough operand bytes, and one too few, for each length. -/
theorem witness_DecodeRefusesOnlyMissingBytes :
    handlerLength (lookupHandler 0xB8#8) = 4 + 1 ∧ 3 + 1 < handlerLength (lookupHandler 0xB8#8) ∧
      handlerLength (lookupHandler 0xEB#8) = 1 + 1 ∧ 0 + 1 < handlerLength (lookupHandler 0xEB#8) ∧
      handlerLength (lookupHandler 0x00#8) = 0 + 1 := by decide

/-- MovFormatBits: the first and the last opcode of the format. -/
theorem witness_MovFormatBits :
    (0xB8#8).extractLsb' 3 5 = 0b10111#5 ∧ (0xBF#8).extractLsb' 3 5 = 0b10111#5 := by decide

/-- RegisterFieldIsLowOpcodeBits: both ends of the range. -/
theorem witness_RegisterFieldIsLowOpcodeBits :
    (0xB8 ≤ (0xB8#8).toNat ∧ (0xB8#8).toNat ≤ 0xBF) ∧ 0xB8 ≤ (0xBF#8).toNat ∧ (0xBF#8).toNat ≤ 0xBF := by
  decide

/-- LastRegistrationWins: an opcode other than the registered one. -/
theorem witness_LastRegistrationWins : (0x00#8 : Byte) ≠ 0xB8#8 := by decide

/-- ByteReads: the last byte of memory, and the first address above it. -/
theorem witness_ByteReads :
    (mk 6 5 0 []).pc.toNat + 0 < (mk 6 5 0 []).mem.size ∧
      (mk 6 5 0 []).mem.size ≤ (mk 6 5 0 []).pc.toNat + 1 := by decide

/-- WordReadIsLittleEndian: the last word of memory, and one byte past it. -/
theorem witness_WordReadIsLittleEndian :
    (mk 6 0 0 []).pc.toNat + 2 + 4 ≤ (mk 6 0 0 []).mem.size ∧
      (mk 6 0 0 []).mem.size < (mk 6 0 0 []).pc.toNat + 3 + 4 := by decide

/-- MovCompletes and CutOffInstructionsHalt: the last address at which MOV executes and the next one; the
same of JMP for JmpCompletes. -/
theorem witness_operands_at_the_end_of_memory :
    (mk 16 11 0 []).pc.toNat + 5 ≤ (mk 16 11 0 []).mem.size ∧
      (mk 16 12 0 []).mem.size < (mk 16 12 0 []).pc.toNat + 5 ∧
      (mk 16 14 0 []).pc.toNat + 2 ≤ (mk 16 14 0 []).mem.size ∧
      (mk 16 15 0 []).mem.size < (mk 16 15 0 []).pc.toNat + 2 := by decide

/-- MovCompletes at the very top: MEMSIZE = 2^32 and pc = 0xFFFFFFFB. -/
theorem witness_MovCompletes_at_the_top :
    (mk 4294967296 0xFFFFFFFB#32 0 []).pc.toNat + 5 ≤ (mk 4294967296 0xFFFFFFFB#32 0 []).mem.size := by decide

/-- InstructionFrame: each instruction answers a next state. -/
theorem witness_InstructionFrame :
    (next? (exec (.mov .eax 1#32) (mk 16 11 0 []))).isSome ∧ (next? (exec (.mov .eax 1#32) (mk 16 12 0 []))).isSome ∧
      (next? (exec (.jmp 0xFE#8) (mk 16 0 0 []))).isSome ∧ (next? (exec (.absent 0x90#8) (mk 16 0 0 []))).isSome := by
  decide

/-- StepRunsDecodedInstruction: bytes at the program counter that decode. -/
theorem witness_StepRunsDecodedInstruction :
    let s := mk 7 5 5 [0xEB#8, 0xFE#8]
    s.run = .running ∧ (∀ k b, [0xEB#8, 0xFE#8][k]? = some b → s.mem.read (s.pc.toNat + k) = some b) ∧
      decode [0xEB#8, 0xFE#8] = .ok (.jmp 0xFE#8, []) := by
  refine ⟨rfl, fun k b h => ?_, rfl⟩
  match k with
  | 0 => exact h
  | 1 => exact h
  | k + 2 => exact absurd h (by simp)

/-- MovStep: both ends of the opcode range, with the immediate just inside memory and cut off. -/
theorem witness_MovStep :
    (let s := mk 16 11 11 [0xB8#8]
     s.run = .running ∧ s.mem.read s.pc.toNat = some 0xB8#8 ∧ 0xB8 ≤ (0xB8#8).toNat ∧
       (0xB8#8).toNat ≤ 0xBF ∧ s.pc.toNat + 5 ≤ s.mem.size) ∧
    (let s := mk 16 12 12 [0xBF#8]
     s.run = .running ∧ s.mem.read s.pc.toNat = some 0xBF#8 ∧ 0xB8 ≤ (0xBF#8).toNat ∧
       (0xBF#8).toNat ≤ 0xBF ∧ s.mem.size < s.pc.toNat + 5) := by decide

/-- JmpStep: the displacement just inside memory, and cut off. -/
theorem witness_JmpStep :
    (let s := mk 16 14 14 [0xEB#8]
     s.run = .running ∧ s.mem.read s.pc.toNat = some 0xEB#8 ∧ s.pc.toNat + 2 ≤ s.mem.size) ∧
    (let s := mk 16 15 15 [0xEB#8]
     s.run = .running ∧ s.mem.read s.pc.toNat = some 0xEB#8 ∧ s.mem.size < s.pc.toNat + 2) := by decide

/-- AbsentOpcodeStep: opcodes at the edges of the three absent ranges, fetched. -/
theorem witness_AbsentOpcodeStep :
    let s := mk 5 0 0 [0xB7#8, 0xC0#8, 0xEA#8, 0xEC#8, 0xFF#8]
    s.run = .running ∧ readU8 s 0 = some 0xB7#8 ∧ (0xB7#8).toNat ≤ 0xB7 ∧
      readU8 (setPc s 1) 0 = some 0xC0#8 ∧ 0xC0 ≤ (0xC0#8).toNat ∧ (0xC0#8).toNat ≤ 0xEA ∧
      readU8 (setPc s 2) 0 = some 0xEA#8 ∧ 0xC0 ≤ (0xEA#8).toNat ∧ (0xEA#8).toNat ≤ 0xEA ∧
      readU8 (setPc s 3) 0 = some 0xEC#8 ∧ 0xEC ≤ (0xEC#8).toNat ∧
      readU8 (setPc s 4) 0 = some 0xFF#8 ∧ 0xEC ≤ (0xFF#8).toNat := by decide

/-- GuardHaltsOutsideMemory: pc equal to MEMSIZE, INIT_IP equal to MEMSIZE, and MEMSIZE = 2^32. -/
theorem witness_GuardHaltsOutsideMemory :
    (mk 16 16 0 []).run = .running ∧ (mk 16 16 0 []).mem.size ≤ (mk 16 16 0 []).pc.toNat ∧
      (16 : Nat) ≤ (16#32).toNat ∧ (mk 4294967296 0xFFFFFFFF#32 0 []).mem.size = Config.addressSpace := by
  decide

/-- HaltReasonsInOrder, HaltsAreSetRunOnly, ProgramEndExactlyWhen, PcWrittenByHandlersAlone and StepKeepsInv:
RUNNING states whose step answers a state, one for each reason and one that stays RUNNING. -/
theorem witness_each_way_a_step_ends :
    runPc (mk 16 16 0 []) = some (.halted .outOfBounds, 16#32) ∧
      runPc (mk 16 12 12 [0xB8#8]) = some (.halted .outOfBounds, 12#32) ∧
      runPc (mk 16 15 0 []) = some (.halted (.unimplementedOpcode 0x00#8), 15#32) ∧
      runPc (mk 16 14 14 [0xEB#8, 0xFE#8]) = some (.halted .programEnd, 0#32) ∧
      runPc (mk 16 11 11 [0xB8#8]) = some (.running, 16#32) := by decide

/-- ProgramEndExactlyWhen: the one MOV that ends a program, with MEMSIZE in its domain. -/
theorem witness_ProgramEndExactlyWhen :
    let s := mk 4294967296 0xFFFFFFFB#32 0xFFFFFFFB [0xB8#8]
    s.mem.size ≤ Config.addressSpace ∧ s.mem.read s.pc.toNat = some 0xB8#8 ∧
      runPc s = some (.halted .programEnd, 0#32) := by decide

/-- PcWrittenByHandlersAlone and ExecutedInstructionsAreCompletedHandlers: an iteration that is an executed
instruction and one that is not. -/
theorem witness_executesInstruction :
    executesInstruction (mk 16 11 11 [0xB8#8]) = true ∧ executesInstruction (mk 16 14 14 [0xEB#8]) = true ∧
      executesInstruction (mk 16 15 0 []) = false ∧ executesInstruction (mk 16 15 15 [0xEB#8]) = false ∧
      (mk 16 15 0 []).run = .running := by decide

/-- IterationCounts: a run that ends before its fuel. -/
theorem witness_IterationCounts : iterationCount 3 (mk 16 14 14 [0xEB#8, 0xFE#8]) < 3 := by decide

/-- JumpTargetTable: the displacement bytes where its clauses meet. -/
theorem witness_JumpTargetTable :
    jumpTarget 0x7F#8 = 129#32 ∧ jumpTarget 0x80#8 = 0xFFFFFF82#32 ∧ jumpTarget 0xFD#8 = 0xFFFFFFFF#32 ∧
      jumpTarget 0xFE#8 = 0#32 ∧ jumpTarget 0xFF#8 = 1#32 := by decide

/-- JumpIgnoresItsPosition: two jumps with one displacement byte in different places (V-JMP rows 1 and 5). -/
theorem witness_JumpIgnoresItsPosition :
    let s := mk 1048576 0 0 [0xEB#8, 0x00#8]
    let s' := mk 2000 1000 1000 [0xEB#8, 0x00#8]
    s.run = .running ∧ s'.run = .running ∧ readU8 s 0 = some 0xEB#8 ∧ readU8 s 1 = some 0x00#8 ∧
      readU8 s' 0 = some 0xEB#8 ∧ readU8 s' 1 = some 0x00#8 ∧ s.pc ≠ s'.pc := by decide

/-- SelfJumpRunsForever: all its hypotheses, at a self-jump at 2, at the lowest target 1, at the highest low
target 129 and in the high range (R88). -/
theorem witness_SelfJumpRunsForever :
    (let s := mk 16 2 2 [0xEB#8, 0x00#8]
     s.run = .running ∧ s.mem.read s.pc.toNat = some 0xEB#8 ∧
       s.mem.read (s.pc.toNat + 1) = some 0x00#8 ∧ jumpTarget 0x00#8 = s.pc ∧ s.pc ≠ 0) ∧
    (let s := mk 16 1 1 [0xEB#8, 0xFF#8]
     s.run = .running ∧ s.mem.read s.pc.toNat = some 0xEB#8 ∧
       s.mem.read (s.pc.toNat + 1) = some 0xFF#8 ∧ jumpTarget 0xFF#8 = s.pc ∧ s.pc ≠ 0) ∧
    (let s := mk 131 129 129 [0xEB#8, 0x7F#8]
     s.run = .running ∧ s.mem.read s.pc.toNat = some 0xEB#8 ∧
       s.mem.read (s.pc.toNat + 1) = some 0x7F#8 ∧ jumpTarget 0x7F#8 = s.pc ∧ s.pc ≠ 0) ∧
    (let s := mk 4294967296 0xFFFFFF82#32 0xFFFFFF82 [0xEB#8, 0x80#8]
     s.run = .running ∧ s.mem.read s.pc.toNat = some 0xEB#8 ∧
       s.mem.read (s.pc.toNat + 1) = some 0x80#8 ∧ jumpTarget 0x80#8 = s.pc ∧ s.pc ≠ 0) := by decide

/-- JumpToZeroEndsNormally: `EB FE` in the last two bytes of memory. -/
theorem witness_JumpToZeroEndsNormally :
    (mk 16 14 14 [0xEB#8, 0xFE#8]).run = .running ∧ readU8 (mk 16 14 14 [0xEB#8, 0xFE#8]) 0 = some 0xEB#8 ∧
      readU8 (mk 16 14 14 [0xEB#8, 0xFE#8]) 1 = some 0xFE#8 := by decide

/-- MovAtTheEndOfMemory (V-LOOP row 7). -/
theorem witness_MovAtTheEndOfMemory :
    let s := mk 16 11 11 [0xB8#8, 0x01#8, 0x02#8, 0x03#8, 0x04#8]
    s.run = .running ∧ s.mem.read s.pc.toNat = some 0xB8#8 ∧ lookupHandler 0xB8#8 = .mov ∧
      s.pc.toNat + 5 = s.mem.size ∧ s.mem.size < Config.addressSpace := by decide

/-- HaltedIsTerminal, RunningAlwaysSteps, TraceIsPcAndOpcode and DiagnosticsReportTheState: a HALTED state. -/
theorem witness_halted : (halt .programEnd (mk 16 0 0 [])).run = .halted .programEnd ∧
    next? (step (halt .programEnd (mk 16 0 0 []))) = none := by decide

/-- StepKeepsInv: the invariant holds in a RUNNING state whose step answers a state, also where memory has
its largest size. -/
theorem witness_StepKeepsInv :
    Inv (mk 16 14 14 [0xEB#8, 0xFE#8]) ∧ Inv (mk 4294967296 0xFFFFFFFB#32 0xFFFFFFFB [0xB8#8]) :=
  ⟨⟨by decide, trivial⟩, ⟨by decide, trivial⟩⟩

/-- CreatedStateHasInv and ResetValues: parameters at both ends of the domain of MEMSIZE, and an image with an
address inside it, one beyond it and one above MEMSIZE. -/
theorem witness_params :
    Config.Params.wf ⟨0, 0#32, 0#32, [], 512⟩ ∧ Config.Params.wf ⟨4294967296, 9#32, 9#32, [0x11#8], 512⟩ ∧
      0 < min [0x11#8].length (min 512 4294967296) ∧ ¬ 1 < min [0x11#8].length (min 512 4294967296) ∧
      1 < 4294967296 ∧ Reg.ebp ≠ Reg.esp := by decide

/-- MemoryNeverChanges: a state reached by a step. -/
theorem witness_MemoryNeverChanges :
    ∃ t, Reaches (mk 16 11 11 [0xB8#8]) t ∧ t.pc = 16#32 :=
  ⟨_, .tail (.refl _) rfl, rfl⟩

/-- CanonicalMemoryIsUnique: a memory built in two orders. -/
theorem witness_CanonicalMemoryIsUnique :
    let m := ((Memory.zeroed 8).write 3 0x11#8).write 5 0x22#8
    let m' := ((Memory.zeroed 8).write 5 0x22#8).write 3 0x11#8
    m.wf ∧ m'.wf ∧ m.size = m'.size ∧ m = m' := by decide

/-- RegistersAreNeverRead: two states that differ in a register the next step leaves alone and in one that it
writes. -/
theorem witness_RegistersAreNeverRead :
    let s := mk 16 11 11 [0xB8#8]
    let s' := writeReg (writeReg s .ebx 99#32) .eax 98#32
    s.pc = s'.pc ∧ s.mem = s'.mem ∧ s.run = s'.run ∧
      readReg s .ebx ≠ readReg s' .ebx ∧ readReg s .eax ≠ readReg s' .eax := by decide

/-- PlacedWordRunsNext: five bytes of memory exactly, and a word that decodes. -/
theorem witness_PlacedWordRunsNext :
    (mk 16 11 0 []).run = .running ∧ (mk 16 11 0 []).mem.wf ∧
      (mk 16 11 0 []).pc.toNat + 5 ≤ (mk 16 11 0 []).mem.size ∧
      decodeTableWord 40 0x12345678B9 = some (.mov .ecx 0x12345678#32) := by decide

/-- TraceIsPcAndOpcode and FetchIsInsideMemory: the last byte of memory is fetched, the next address is not. -/
theorem witness_trace :
    trace (mk 16 15 0 []) = some (15#32, 0x00#8) ∧ trace (mk 16 16 0 []) = none ∧
      (mk 16 15 0 []).pc.toNat < (mk 16 15 0 []).mem.size ∧
      ¬ (mk 16 16 0 []).pc.toNat < (mk 16 16 0 []).mem.size := by decide

end Sys2Proof.Tests
end

section
/-! PROOFS. The state right after creation: its registers and memory as functions of the parameters, and the
two statements about it, the invariant for all parameters and the values of the reference reset. -/

namespace Sys2Proof.Machine

/-! ## Registers -/

/-- The file is zero-initialized, then the stack-pointer register takes INIT_SP (R22). -/
theorem readReg_create (p : Config.Params) (r : Reg) :
    readReg (State.create p) r = if r = .esp then p.initSp else 0 := by
  cases r <;> rfl

/-! ## Memory -/

@[simp] theorem Memory.zeroed_size (n : Nat) : (Memory.zeroed n).size = n := rfl

/-- A memory of zeros reads as zero everywhere inside (R120 point 2). -/
theorem Memory.read_zeroed_of_lt {n a : Nat} (h : a < n) : (Memory.zeroed n).read a = some 0 :=
  Memory.read_of_lt h

/-- An empty image leaves the memory of zeros as it is (R121). -/
theorem Memory.loaded_of_image_nil {p : Config.Params} (h : p.image = []) :
    Memory.loaded p = Memory.zeroed p.memSize := by
  rw [Memory.loaded, h, List.take_nil, Memory.writeBytes]

/-! ## The invariant -/

/-- A machine that is RUNNING has recorded no halt, so there is nothing to be accurate about. -/
theorem haltRecordAccurate_of_running {s : State} (h : s.run = .running) : HaltRecordAccurate s := by
  rw [HaltRecordAccurate, h]
  trivial

/-- For a RUNNING machine the invariant is memory's canonical form. -/
theorem inv_iff_of_running {s : State} (h : s.run = .running) : Inv s ↔ s.mem.wf :=
  and_iff_left (haltRecordAccurate_of_running h)

/-- Settles O38: creation leaves the machine RUNNING, and the image load keeps memory's canonical form. -/
theorem createdStateHasInv : Obligations.CreatedStateHasInv := fun p hp =>
  (inv_iff_of_running (create_run p)).mpr (Memory.loaded_wf hp)

/-! ## The reference reset -/

/-- The model's INIT_SP is 0 (log 2), so the stack-pointer register is no exception. -/
theorem readReg_reset (r : Reg) : readReg State.reset r = 0 :=
  (readReg_create Config.reference r).trans (ite_self 0)

/-- The model's image is empty (log 2), so reset's memory is the memory of zeros. -/
theorem reset_mem : State.reset.mem = Memory.zeroed 1048576 :=
  Memory.loaded_of_image_nil rfl

/-- Settles O43, by the values of creation at the reference parameters. -/
theorem referenceReset : Obligations.ReferenceReset := by
  unfold Obligations.ReferenceReset
  rw [reset_mem]
  exact ⟨readReg_reset, rfl, rfl, Memory.zeroed_size _, fun _ h => Memory.read_zeroed_of_lt h⟩

end Sys2Proof.Machine
end

section
/-! PROOFS. What every step keeps and what it leaves alone: memory, the program counter, the halt record, and
the registers, which no instruction reads. -/

namespace Sys2Proof.Machine

/-! ## What an instruction can do -/

theorem exec_mov (r : Reg) (imm : Word) (s : State) :
    exec (.mov r imm) s = withOperands 5 (fun s => setPc (writeReg s r imm) (pcAfter s 5)) s := rfl

theorem exec_jmp (d : Byte) (s : State) :
    exec (.jmp d) s = withOperands 2 (fun s => setPc s (jumpTarget d)) s := rfl

theorem exec_absent (op : Byte) (s : State) : exec (.absent op) s = .next (raiseUnimplemented op s) := rfl

/-- Everything the handler contract can answer: the raise of a cut-off instruction, or the whole effect. -/
theorem withOperands_next_cases {n : Nat} {effect : State → State} {s t : State}
    (h : withOperands n effect s = .next t) : t = raiseOutOfBounds s ∨ t = effect s := by
  rw [withOperands] at h
  split at h <;> cases h
  · exact .inr rfl
  · exact .inl rfl

/-- Everything `exec` can answer: a cut-off MOV or JMP raises OutOfBounds, and otherwise each of the three
instructions has its own effect whole. -/
theorem exec_next_cases {i : Instr} {s t : State} (h : exec i s = .next t) :
    t = raiseOutOfBounds s ∨
    (∃ r imm, i = .mov r imm ∧ t = setPc (writeReg s r imm) (pcAfter s 5)) ∨
    (∃ d, i = .jmp d ∧ t = setPc s (jumpTarget d)) ∨
    (∃ op, i = .absent op ∧ t = raiseUnimplemented op s) := by
  cases i with
  | mov r imm =>
    rw [exec_mov] at h
    exact (withOperands_next_cases h).imp_right fun ht => .inl ⟨r, imm, rfl, ht⟩
  | jmp d =>
    rw [exec_jmp] at h
    exact (withOperands_next_cases h).imp_right fun ht => .inr (.inl ⟨d, rfl, ht⟩)
  | absent op =>
    rw [exec_absent] at h
    cases h
    exact .inr (.inr (.inr ⟨op, rfl, rfl⟩))

/-- No instruction writes memory (R40). -/
theorem exec_mem {i : Instr} {s t : State} (h : exec i s = .next t) : t.mem = s.mem := by
  obtain rfl | ⟨r, imm, -, rfl⟩ | ⟨d, -, rfl⟩ | ⟨op, -, rfl⟩ := exec_next_cases h <;> simp

/-- An instruction leaves every register but its destination alone (R12). -/
theorem readReg_exec_of_ne_destination {i : Instr} {s t : State} {r : Reg} (h : exec i s = .next t)
    (hr : destination i ≠ some r) : readReg t r = readReg s r := by
  obtain rfl | ⟨r', imm, rfl, rfl⟩ | ⟨d, -, rfl⟩ | ⟨op, -, rfl⟩ := exec_next_cases h
  · simp
  · rw [readReg_setPc, readReg_writeReg_other]
    rintro rfl
    exact hr rfl
  · simp
  · simp

/-- What an instruction can leave in the run state (R70). -/
theorem exec_run {i : Instr} {s t : State} (h : exec i s = .next t) :
    t.run = s.run ∨ t.run = .halted .outOfBounds ∨
      ∃ op, i = .absent op ∧ t.run = .halted (.unimplementedOpcode op) := by
  obtain rfl | ⟨r, imm, -, rfl⟩ | ⟨d, -, rfl⟩ | ⟨op, rfl, rfl⟩ := exec_next_cases h
  · exact .inr (.inl rfl)
  · exact .inl rfl
  · exact .inl rfl
  · exact .inr (.inr ⟨op, rfl, rfl⟩)

/-- Settles O16, from what an instruction does to registers, memory and the run state. -/
theorem instructionFrame : Obligations.InstructionFrame := by
  intro i s t h
  refine ⟨fun r hr => readReg_exec_of_ne_destination h hr, ?_, fun a => ?_, exec_run h⟩ <;> rw [exec_mem h]

/-! ## What a step can do -/

/-- `step_cases` for a step that answers a state: the machine was RUNNING, and the answer is one of the three
raises or a completed handler's state after the sentinel check. -/
theorem step_next_cases {s t : State} (h : step s = .next t) :
    s.run = .running ∧
    ((s.mem.size ≤ s.pc.toNat ∧ t = raiseOutOfBounds s) ∨
     (∃ op, readU8 s 0 = some op ∧ s.mem.size < s.pc.toNat + handlerLength (lookupHandler op) ∧
        t = raiseOutOfBounds s) ∨
     (∃ op, readU8 s 0 = some op ∧ lookupHandler op = .absent ∧ t = raiseUnimplemented op s) ∨
     (∃ op imm, readU8 s 0 = some op ∧ lookupHandler op = .mov ∧ s.pc.toNat + 5 ≤ s.mem.size ∧
        t = sentinelCheck (setPc (writeReg s (regOfOpcode op) imm) (pcAfter s 5))) ∨
     (∃ op d, readU8 s 0 = some op ∧ lookupHandler op = .jmp ∧ readU8 s 1 = some d ∧
        s.pc.toNat + 2 ≤ s.mem.size ∧ t = sentinelCheck (setPc s (jumpTarget d)))) := by
  rcases step_cases s with ⟨c, -, hs⟩ | ⟨hr, hge, hs⟩ | ⟨op, hr, hop, hcut, hs⟩ | ⟨op, hr, hop, hl, -, hs⟩ |
    ⟨op, imm, hr, hop, hl, -, hle, -, hs⟩ | ⟨op, d, hr, hop, hl, hd, hle, -, hs⟩ <;>
    rw [hs] at h <;> cases h
  · exact ⟨hr, .inl ⟨hge, rfl⟩⟩
  · exact ⟨hr, .inr (.inl ⟨op, hop, hcut, rfl⟩)⟩
  · exact ⟨hr, .inr (.inr (.inl ⟨op, hop, hl, rfl⟩))⟩
  · exact ⟨hr, .inr (.inr (.inr (.inl ⟨op, imm, hop, hl, hle, rfl⟩)))⟩
  · exact ⟨hr, .inr (.inr (.inr (.inr ⟨op, d, hop, hl, hd, hle, rfl⟩)))⟩

/-- From HALTED there is no transition (R72). -/
theorem step_of_halted {s : State} {c : HaltReason} (hr : s.run = .halted c) :
    step s = .fault (.noTransition c) := by
  simp [step, iteration, hr]

/-- The guard of step 1 halts a RUNNING machine whose `pc` is outside memory (R67). -/
theorem step_of_not_fetchable {s : State} (hr : s.run = .running) (hf : fetchable s = false) :
    step s = .next (raiseOutOfBounds s) := by
  simp [step, iteration, hr, hf]

/-- A fetch that lacks a byte halts with out_of_bounds (R36). -/
theorem step_of_fetch_error {s : State} {e : DecodeError} (hr : s.run = .running)
    (hf : fetchable s = true) (he : fetch s = .error e) : step s = .next (raiseOutOfBounds s) := by
  simp [step, iteration, hr, hf, he]

/-- A fetched instruction is executed, and the sentinel check follows (R66). -/
theorem step_of_fetch_ok {s : State} {i : Instr} (hr : s.run = .running) (hf : fetchable s = true)
    (hi : fetch s = .ok i) : step s = afterHandler (exec i s) := by
  simp [step, iteration, hr, hf, hi]

/-! ## Memory along a run -/

/-- No step writes memory (R40). -/
theorem step_mem {s t : State} (h : step s = .next t) : t.mem = s.mem := by
  obtain ⟨-, ⟨-, rfl⟩ | ⟨op, -, -, rfl⟩ | ⟨op, -, -, rfl⟩ | ⟨op, imm, -, -, -, rfl⟩ |
    ⟨op, d, -, -, -, -, rfl⟩⟩ := step_next_cases h <;> simp

/-- Memory is the same data in every state a run reaches. -/
theorem Reaches.mem_eq {s t : State} (h : Reaches s t) : t.mem = s.mem := by
  induction h with
  | refl => rfl
  | tail _ hs ih => exact (step_mem hs).trans ih

/-- Settles O39: no step of the run writes memory. -/
theorem memoryNeverChanges : Obligations.MemoryNeverChanges := by
  intro s t h
  rw [h.mem_eq]
  exact ⟨rfl, fun _ => rfl⟩

/-! ## The end of a run -/

/-- Nothing but itself is reached from a HALTED state. -/
theorem Reaches.eq_of_halted {s t : State} {c : HaltReason} (hr : s.run = .halted c)
    (h : Reaches s t) : t = s := by
  induction h with
  | refl => rfl
  | tail _ hs ih =>
    rw [ih, step_of_halted hr] at hs
    cases hs

/-- Settles O34, by induction on the steps that would leave the HALTED state. -/
theorem haltedIsTerminal : Obligations.HaltedIsTerminal := fun _ _ hr =>
  ⟨step_of_halted hr, fun _ h => h.eq_of_halted hr⟩

/-! ## The fetch -/

/-- A trace pair comes from a RUNNING machine that passed the guard (R75). -/
theorem running_and_lt_of_trace {s : State} {pair : Word × Byte} (h : trace s = some pair) :
    s.run = .running ∧ s.pc.toNat < s.mem.size := by
  unfold trace at h
  cases hr : s.run with
  | halted c => simp [hr] at h
  | running =>
    refine ⟨rfl, (fetchable_iff s).mp ?_⟩
    by_contra hf
    simp [hr, hf] at h

/-- The guard of step 1 fails exactly at or above MEMSIZE. -/
theorem fetchable_eq_false_iff (s : State) : fetchable s = false ↔ s.mem.size ≤ s.pc.toNat := by
  rw [← Nat.not_lt, ← fetchable_iff, Bool.not_eq_true]

/-- Settles O46: outside memory the guard halts the machine, and no fetch yields a trace pair. -/
theorem fetchIsInsideMemory : Obligations.FetchIsInsideMemory := by
  intro s
  refine ⟨fun pair h => running_and_lt_of_trace h, fun hr hge => ⟨?_, _, ?_, raiseOutOfBounds_run s⟩⟩
  · rw [Option.eq_none_iff_forall_ne_some]
    intro pair h
    exact hge (running_and_lt_of_trace h).2
  · exact step_of_not_fetchable hr ((fetchable_eq_false_iff s).mpr (Nat.not_lt.mp hge))

/-! ## The program counter -/

/-- An iteration is an executed instruction exactly when the machine is RUNNING at an opcode that has a
handler and all the bytes that handler reads lie in memory (R70, R76). -/
theorem executesInstruction_iff (s : State) :
    executesInstruction s = true ↔ s.run = .running ∧ ∃ op, readU8 s 0 = some op ∧
      lookupHandler op ≠ .absent ∧ s.pc.toNat + handlerLength (lookupHandler op) ≤ s.mem.size := by
  cases hr : s.run with
  | halted c => simp [executesInstruction, hr]
  | running =>
    rcases decodeFrom_cases (readU8 s) with ⟨h0, hd⟩ | ⟨op, h0, h⟩
    · simp [executesInstruction, hr, fetch, hd, h0]
    · have hf : fetchable s = true := (fetchable_iff s).mpr (lt_of_readU8 h0)
      rcases h with ⟨hl, hd⟩ | ⟨hl, hu, hd⟩ | ⟨imm, hl, hu, hd⟩ | ⟨hl, hu, hd⟩ | ⟨d, hl, hu, hd⟩
      · simp [executesInstruction, hr, hf, fetch, hd, h0, hl]
      · have hcut : ¬ s.pc.toNat + 5 ≤ s.mem.size := by
          have := (readU32_eq_none_iff s 1).mp hu
          omega
        simp [executesInstruction, hr, hf, fetch, hd, h0, hl, handlerLength, hcut]
      · have hle : s.pc.toNat + 5 ≤ s.mem.size := by
          have := mt (readU32_eq_none_iff s 1).mpr (by simp [hu])
          omega
        simp [executesInstruction, hr, hf, fetch, hd, h0, hl, handlerLength, hle]
      · have hcut : ¬ s.pc.toNat + 2 ≤ s.mem.size := by
          have := (readU8_eq_none_iff s 1).mp hu
          omega
        simp [executesInstruction, hr, hf, fetch, hd, h0, hl, handlerLength, hcut]
      · have hle : s.pc.toNat + 2 ≤ s.mem.size := lt_of_readU8 hu
        simp [executesInstruction, hr, hf, fetch, hd, h0, hl, handlerLength, hle]

/-- A step that completes no handler leaves the program counter where it is (R70). -/
theorem step_pc_of_not_executes {s t : State} (h : step s = .next t) (hx : executesInstruction s = false) :
    t.pc = s.pc := by
  rw [← Bool.not_eq_true, executesInstruction_iff] at hx
  obtain ⟨hr, ⟨-, rfl⟩ | ⟨op, -, -, rfl⟩ | ⟨op, -, -, rfl⟩ | ⟨op, imm, hop, hl, hle, -⟩ |
    ⟨op, d, hop, hl, -, hle, -⟩⟩ := step_next_cases h
  · rfl
  · rfl
  · rfl
  · exact absurd ⟨hr, op, hop, by simp [hl], by simpa [hl, handlerLength]⟩ hx
  · exact absurd ⟨hr, op, hop, by simp [hl], by simpa [hl, handlerLength]⟩ hx

/-- A step that completes a handler has that handler's program counter: the straight-line advance of MOV
(R82) or the absolute target of JMP (R86). -/
theorem step_pc_of_executes {s t : State} (h : step s = .next t) (hx : executesInstruction s = true) :
    ∃ op, readU8 s 0 = some op ∧
      ((lookupHandler op = .mov ∧ t.pc = pcAfter s 5) ∨
       (lookupHandler op = .jmp ∧ ∃ d, readU8 s 1 = some d ∧ t.pc = jumpTarget d)) := by
  obtain ⟨-, op, hop, hne, hin⟩ := (executesInstruction_iff s).mp hx
  obtain ⟨-, ⟨hge, -⟩ | ⟨op', hop', hcut, -⟩ | ⟨op', hop', hl, -⟩ | ⟨op', imm, hop', hl, -, rfl⟩ |
    ⟨op', d, hop', hl, hd, -, rfl⟩⟩ := step_next_cases h
  · have := lt_of_readU8 hop
    omega
  · obtain rfl : op = op' := Option.some.inj (hop.symm.trans hop')
    omega
  · obtain rfl : op = op' := Option.some.inj (hop.symm.trans hop')
    exact absurd hl hne
  · exact ⟨op', hop', .inl ⟨hl, by simp⟩⟩
  · exact ⟨op', hop', .inr ⟨hl, d, hd, by simp⟩⟩

/-- Settles O25, by whether the step completes a handler. -/
theorem pcWrittenByHandlersAlone : Obligations.PcWrittenByHandlersAlone := by
  intro s t h
  refine ⟨step_pc_of_not_executes h, fun hx => ?_⟩
  obtain ⟨op, hop, ⟨hl, hpc⟩ | ⟨hl, d, hd, hpc⟩⟩ := step_pc_of_executes h hx
  · exact ⟨op, hop, .inl ⟨hl, hpc.trans (pcAfter_eq_add s 5)⟩⟩
  · exact ⟨op, hop, .inr ⟨hl, d, hd, hpc⟩⟩

/-! ## The halt record -/

/-- The record that `raise OutOfBounds` leaves is accurate exactly for its two causes (R101). -/
theorem haltRecordAccurate_raiseOutOfBounds_iff (s : State) :
    HaltRecordAccurate (raiseOutOfBounds s) ↔ s.mem.size ≤ s.pc.toNat ∨ operandMissing s :=
  Iff.rfl

/-- The record that `raise Unimplemented(op)` leaves is accurate exactly at an absent `op` (R102). -/
theorem haltRecordAccurate_raiseUnimplemented_iff (op : Byte) (s : State) :
    HaltRecordAccurate (raiseUnimplemented op s) ↔ readU8 s 0 = some op ∧ lookupHandler op = .absent :=
  Iff.rfl

/-- After a completed handler the sentinel check records program_end at `pc = 0` alone (R103). -/
theorem haltRecordAccurate_sentinelCheck {s : State} (hr : s.run = .running) :
    HaltRecordAccurate (sentinelCheck s) := by
  obtain ⟨-, hpc, h⟩ | ⟨-, -, h⟩ | ⟨c, hc, -⟩ := sentinelCheck_cases s
  · rw [h]
    exact hpc
  · rw [h]
    exact haltRecordAccurate_of_running hr
  · rw [hr] at hc
    cases hc

/-- What a step records in `run` agrees with the state it answers, whatever state it starts from. -/
theorem step_haltRecordAccurate {s t : State} (h : step s = .next t) : HaltRecordAccurate t := by
  obtain ⟨hr, ⟨hge, rfl⟩ | ⟨op, hop, hcut, rfl⟩ | ⟨op, hop, hl, rfl⟩ | ⟨op, imm, -, -, -, rfl⟩ |
    ⟨op, d, -, -, -, -, rfl⟩⟩ := step_next_cases h
  · exact (haltRecordAccurate_raiseOutOfBounds_iff s).mpr (.inl hge)
  · exact (haltRecordAccurate_raiseOutOfBounds_iff s).mpr (.inr ⟨op, hop, hcut⟩)
  · exact (haltRecordAccurate_raiseUnimplemented_iff op s).mpr ⟨hop, hl⟩
  · exact haltRecordAccurate_sentinelCheck hr
  · exact haltRecordAccurate_sentinelCheck hr

/-- Settles O36: memory stays the same data, and every step's record is accurate. -/
theorem stepKeepsInv : Obligations.StepKeepsInv := by
  rintro s t ⟨hwf, -⟩ h
  exact ⟨(step_mem h).symm ▸ hwf, step_haltRecordAccurate h⟩

/-- Settles O37: the reference parameters lie in the domain of R5. -/
theorem resetHasInv : Obligations.ResetHasInv :=
  createdStateHasInv Config.reference (by decide)

/-! ## Registers are never read -/

/-- The two states differ in their registers at most. -/
structure SameButRegs (s s' : State) : Prop where
  pc_eq : s.pc = s'.pc
  mem_eq : s.mem = s'.mem
  run_eq : s.run = s'.run

/-- From `s` and `s'`, `t` and `t'` are reached with nothing computed from a register in them: they differ in
their registers at most, and each register still holds its own start value in both or one common value. -/
structure NothingMixedIn (s s' t t' : State) : Prop extends SameButRegs t t' where
  regs : ∀ r, (readReg t r = readReg s r ∧ readReg t' r = readReg s' r) ∨ readReg t r = readReg t' r

/-- Two runs, from `s` and from `s'`, answer states with nothing mixed in, or stop with one fault. -/
def OutcomesAgree (s s' : State) (o o' : Host.Outcome State Fault Refusal) : Prop :=
  (∃ t t', o = .next t ∧ o' = .next t' ∧ NothingMixedIn s s' t t') ∨ ∃ f, o = .fault f ∧ o' = .fault f

section
variable {s s' : State}

/-! ### What registers have no part in -/

theorem SameButRegs.readU8_eq (h : SameButRegs s s') : readU8 s = readU8 s' := by
  funext off
  rw [readU8, readU8, h.pc_eq, h.mem_eq]

theorem SameButRegs.fetch_eq (h : SameButRegs s s') : fetch s = fetch s' := by
  rw [fetch, fetch, h.readU8_eq]

theorem SameButRegs.fetchable_eq (h : SameButRegs s s') : fetchable s = fetchable s' := by
  rw [fetchable, fetchable, h.pc_eq, h.mem_eq]

theorem SameButRegs.trace_eq (h : SameButRegs s s') : trace s = trace s' := by
  rw [trace, trace, h.run_eq, h.fetchable_eq, h.readU8_eq, h.pc_eq]

theorem SameButRegs.pcAfter_eq (h : SameButRegs s s') (n : Nat) : pcAfter s n = pcAfter s' n := by
  rw [pcAfter, pcAfter, h.pc_eq]

/-! ### The updates of the state mix nothing in -/

theorem SameButRegs.nothingMixedIn_refl (h : SameButRegs s s') : NothingMixedIn s s' s s' where
  toSameButRegs := h
  regs _ := .inl ⟨rfl, rfl⟩

theorem SameButRegs.nothingMixedIn_halt (h : SameButRegs s s') (c : HaltReason) :
    NothingMixedIn s s' (halt c s) (halt c s') where
  pc_eq := h.pc_eq
  mem_eq := h.mem_eq
  run_eq := rfl
  regs r := .inl ⟨readReg_halt c s r, readReg_halt c s' r⟩

theorem SameButRegs.nothingMixedIn_setPc (h : SameButRegs s s') (v : Word) :
    NothingMixedIn s s' (setPc s v) (setPc s' v) where
  pc_eq := rfl
  mem_eq := h.mem_eq
  run_eq := h.run_eq
  regs r := .inl ⟨readReg_setPc s v r, readReg_setPc s' v r⟩

/-- Writing one value into one register leaves the others at their start values. -/
theorem SameButRegs.nothingMixedIn_writeReg (h : SameButRegs s s') (r : Reg) (v : Word) :
    NothingMixedIn s s' (writeReg s r v) (writeReg s' r v) where
  pc_eq := h.pc_eq
  mem_eq := h.mem_eq
  run_eq := h.run_eq
  regs r' := by
    by_cases hr : r' = r
    · subst hr
      exact .inr ((readReg_writeReg_same s r' v).trans (readReg_writeReg_same s' r' v).symm)
    · exact .inl ⟨readReg_writeReg_other s r r' v hr, readReg_writeReg_other s' r r' v hr⟩

/-- The sentinel check looks at `run` and `pc` alone. -/
theorem SameButRegs.nothingMixedIn_sentinelCheck (h : SameButRegs s s') :
    NothingMixedIn s s' (sentinelCheck s) (sentinelCheck s') := by
  rw [sentinelCheck, sentinelCheck, ← h.run_eq, ← h.pc_eq]
  split
  · split
    · exact h.nothingMixedIn_halt .programEnd
    · exact h.nothingMixedIn_refl
  · exact h.nothingMixedIn_refl

/-- A register that one common value has reached keeps a common value: it stays or is overwritten. -/
theorem NothingMixedIn.trans {t t' u u' : State} (h : NothingMixedIn s s' t t')
    (h' : NothingMixedIn t t' u u') : NothingMixedIn s s' u u' where
  toSameButRegs := h'.toSameButRegs
  regs r := by
    rcases h'.regs r with ⟨hu, hu'⟩ | hu
    · rw [hu, hu']
      exact h.regs r
    · exact .inr hu

/-! ### Instructions, steps and runs -/

/-- The operand bound of the handler contract looks at `pc` and MEMSIZE alone. -/
theorem SameButRegs.outcomesAgree_withOperands (h : SameButRegs s s') {n : Nat} {effect : State → State}
    (he : NothingMixedIn s s' (effect s) (effect s')) :
    OutcomesAgree s s' (withOperands n effect s) (withOperands n effect s') := by
  have hb : bytesInMemory s n = bytesInMemory s' n := by
    rw [bytesInMemory, bytesInMemory, h.pc_eq, h.mem_eq]
  rw [withOperands, withOperands, ← hb]
  split
  · exact .inl ⟨_, _, rfl, rfl, he⟩
  · exact .inl ⟨_, _, rfl, rfl, h.nothingMixedIn_halt .outOfBounds⟩

theorem SameButRegs.outcomesAgree_exec (h : SameButRegs s s') (i : Instr) :
    OutcomesAgree s s' (exec i s) (exec i s') := by
  cases i with
  | mov r imm =>
    have hw := h.nothingMixedIn_writeReg r imm
    have hpc := hw.trans (hw.nothingMixedIn_setPc (pcAfter s 5))
    rw [exec_mov, exec_mov]
    exact h.outcomesAgree_withOperands (h.pcAfter_eq 5 ▸ hpc)
  | jmp d =>
    rw [exec_jmp, exec_jmp]
    exact h.outcomesAgree_withOperands (h.nothingMixedIn_setPc (jumpTarget d))
  | absent op => exact .inl ⟨_, _, rfl, rfl, h.nothingMixedIn_halt (.unimplementedOpcode op)⟩

theorem OutcomesAgree.afterHandler {o o' : Host.Outcome State Fault Refusal} (h : OutcomesAgree s s' o o') :
    OutcomesAgree s s' (afterHandler o) (afterHandler o') := by
  obtain ⟨t, t', rfl, rfl, ht⟩ | ⟨f, rfl, rfl⟩ := h
  · exact .inl ⟨_, _, rfl, rfl, ht.trans ht.nothingMixedIn_sentinelCheck⟩
  · exact .inr ⟨f, rfl, rfl⟩

/-- One step of two states that differ in their registers at most takes the same branch in both. -/
theorem SameButRegs.outcomesAgree_step (h : SameButRegs s s') : OutcomesAgree s s' (step s) (step s') := by
  cases hr : s.run with
  | halted c => exact .inr ⟨_, step_of_halted hr, step_of_halted (h.run_eq ▸ hr)⟩
  | running =>
    have hr' : s'.run = .running := h.run_eq ▸ hr
    cases hf : fetchable s with
    | false =>
      have hf' := h.fetchable_eq ▸ hf
      exact .inl ⟨_, _, step_of_not_fetchable hr hf, step_of_not_fetchable hr' hf',
        h.nothingMixedIn_halt .outOfBounds⟩
    | true =>
      have hf' := h.fetchable_eq ▸ hf
      cases hi : fetch s with
      | error e =>
        have hi' := h.fetch_eq ▸ hi
        exact .inl ⟨_, _, step_of_fetch_error hr hf hi, step_of_fetch_error hr' hf' hi',
          h.nothingMixedIn_halt .outOfBounds⟩
      | ok i =>
        rw [step_of_fetch_ok hr hf hi, step_of_fetch_ok hr' hf' (h.fetch_eq ▸ hi)]
        exact (h.outcomesAgree_exec i).afterHandler

theorem SameButRegs.outcomesAgree_run (h : SameButRegs s s') (n : Nat) :
    OutcomesAgree s s' (Sys2Proof.core.run n s) (Sys2Proof.core.run n s') := by
  induction n generalizing s s' with
  | zero => exact .inl ⟨s, s', rfl, rfl, h.nothingMixedIn_refl⟩
  | succ n ih =>
    obtain ⟨t, t', ht, ht', hmix⟩ | ⟨f, hf, hf'⟩ := h.outcomesAgree_step
    · rw [run_succ_of_next n ht, run_succ_of_next n ht']
      obtain ⟨u, u', hu, hu', hmix'⟩ | hfault := ih hmix.toSameButRegs
      · exact .inl ⟨u, u', hu, hu', hmix.trans hmix'⟩
      · exact .inr hfault
    · exact .inr ⟨f, run_succ_of_fault n hf, run_succ_of_fault n hf'⟩

end

/-- Settles O41, by induction on the number of steps: each takes the same branch in both machines and writes
at most one register, with a value from memory. -/
theorem registersAreNeverRead : Obligations.RegistersAreNeverRead := by
  intro n s s' hpc hmem hrun
  obtain ⟨t, t', ht, ht', hmix⟩ | hfault := SameButRegs.outcomesAgree_run ⟨hpc, hmem, hrun⟩ n
  · exact .inl ⟨t, t', ht, ht', hmix.pc_eq, hmix.mem_eq, hmix.run_eq, hmix.trace_eq, hmix.regs⟩
  · exact .inr hfault

/-! ## The canonical form of memory -/

/-- A listed cell is what its address reads as. -/
theorem cellsGet_of_mem {cs : List Host.Cell} {a : Nat} {b : Byte}
    (hrise : cs.Pairwise (fun c d => c.1 < d.1)) (h : (a, b) ∈ cs) : cellsGet cs a = b := by
  induction cs with
  | nil => cases h
  | cons c cs ih =>
    obtain ⟨hlt, hrest⟩ := List.pairwise_cons.mp hrise
    rw [cellsGet]
    rcases List.mem_cons.mp h with rfl | h
    · exact if_pos rfl
    · rw [if_neg (hlt _ h).ne]
      exact ih hrest h

/-- An address that does not read as unlisted has a cell. -/
theorem mem_of_cellsGet {cs : List Host.Cell} {a : Nat} (h : cellsGet cs a ≠ unlistedByte) :
    (a, cellsGet cs a) ∈ cs := by
  induction cs with
  | nil => exact absurd rfl h
  | cons c cs ih =>
    obtain ⟨k, v⟩ := c
    rw [cellsGet] at h ⊢
    by_cases hk : k = a
    · rw [if_pos hk, hk]
      exact List.mem_cons_self
    · rw [if_neg hk] at h ⊢
      exact List.mem_cons_of_mem _ (ih h)

/-- A canonical memory's cells stand in every memory that reads the same. -/
theorem Memory.cells_subset_of_read_eq {m m' : Memory} (hm : m.wf) (h : ∀ a, m.read a = m'.read a) :
    m.cells ⊆ m'.cells := by
  obtain ⟨-, hrise, hcell⟩ := hm
  rintro ⟨a, b⟩ hc
  obtain ⟨ha, hb⟩ := hcell _ hc
  have hread : m'.read a = some b := by
    rw [← h a, Memory.read_of_lt ha, cellsGet_of_mem hrise hc]
  have hget : cellsGet m'.cells a = b := by
    rw [Memory.read_of_lt (Memory.lt_of_read hread)] at hread
    exact Option.some.inj hread
  have hmem : (a, cellsGet m'.cells a) ∈ m'.cells := mem_of_cellsGet (by rw [hget]; exact hb)
  rwa [hget] at hmem

/-- Cells with rising addresses are all different. -/
theorem cells_nodup {cs : List Host.Cell} (hrise : cs.Pairwise (fun c d => c.1 < d.1)) : cs.Nodup :=
  hrise.imp fun hlt heq => hlt.ne (congrArg Prod.fst heq)

/-- Lists of cells with rising addresses and the same members are the same list. -/
theorem cells_eq_of_subset {cs cs' : List Host.Cell} (hrise : cs.Pairwise (fun c d => c.1 < d.1))
    (hrise' : cs'.Pairwise (fun c d => c.1 < d.1)) (h : cs ⊆ cs') (h' : cs' ⊆ cs) : cs = cs' := by
  have hperm : cs.Perm cs' :=
    (List.perm_ext_iff_of_nodup (cells_nodup hrise) (cells_nodup hrise')).mpr
      fun _ => ⟨fun hc => h hc, fun hc => h' hc⟩
  exact hperm.eq_of_pairwise (fun c d _ _ hcd hdc => absurd hcd hdc.asymm) hrise hrise'

/-- Settles O40: the cells are determined by the reads, and their order by their addresses. -/
theorem canonicalMemoryIsUnique : Obligations.CanonicalMemoryIsUnique := by
  rintro ⟨n, cs⟩ ⟨n', cs'⟩ hm hm' rfl hread
  have hcells : cs = cs' := cells_eq_of_subset hm.2.1 hm'.2.1
    (Memory.cells_subset_of_read_eq hm hread) (Memory.cells_subset_of_read_eq hm' fun a => (hread a).symm)
  rw [hcells]

/-! ## Memory after creation -/

@[simp] theorem Memory.loaded_size (p : Config.Params) : (Memory.loaded p).size = p.memSize :=
  Memory.writeBytes_size _ _ _

/-- The `L` bytes that the image load copies (D8). -/
theorem length_take_imageBytesLoaded (p : Config.Params) :
    (p.image.take (imageBytesLoaded p)).length = imageBytesLoaded p :=
  List.length_take_of_le (Nat.min_le_left _ _)

/-- The copied bytes fit in memory (D8). -/
theorem imageBytesLoaded_le_memSize (p : Config.Params) : imageBytesLoaded p ≤ p.memSize :=
  (Nat.min_le_right _ _).trans (Nat.min_le_right _ _)

/-- After the image load an address inside memory holds its byte of the image, and zero from `L` on (R121). -/
theorem Memory.read_loaded_of_lt {p : Config.Params} (hp : p.wf) {a : Nat} (ha : a < p.memSize) :
    (Memory.loaded p).read a = some (if a < imageBytesLoaded p then p.image.getD a 0 else 0) := by
  have hfit := imageBytesLoaded_le_memSize p
  rw [Memory.loaded, Memory.read_writeBytes (Memory.zeroed_wf hp), length_take_imageBytesLoaded]
  · by_cases hl : a < imageBytesLoaded p
    · have hi : a < p.image.length := hl.trans_le (Nat.min_le_left _ _)
      simp [hl, hi]
    · simp [hl, Memory.read_zeroed_of_lt ha]
  · rw [length_take_imageBytesLoaded, Memory.zeroed_size]
    omega

/-- Settles O42, field by field. -/
theorem resetValues : Obligations.ResetValues := by
  intro p hp
  refine ⟨readReg_create p .esp, fun r hr => ?_, rfl, rfl, Memory.loaded_size p, fun a ha => ?_, fun a ha => ?_⟩
  · rw [readReg_create, if_neg hr]
  · exact Memory.read_loaded_of_lt hp ha
  · exact Memory.read_of_ge ((Memory.loaded_size p).le.trans ha)

end Sys2Proof.Machine
end

section
/-! PROOFS. The Byte Decoder's reads (spec/20_memory.md R32 to R36): when they give a value, and which number
it is. -/

namespace Sys2Proof.Machine

/-! ## The assembled word as a number -/

/-- A byte shifted into a word by at most three byte positions loses no bit. -/
theorem toNat_setWidth_shiftLeft (b : Byte) {k : Nat} (hk : k ≤ 24) :
    (b.setWidth 32 <<< k).toNat = b.toNat <<< k := by
  have hb : b.toNat <<< k < 2 ^ 32 := calc
    b.toNat <<< k < 2 ^ (8 + k) := Nat.shiftLeft_lt b.isLt
    _ ≤ 2 ^ 32 := Nat.pow_le_pow_right (by decide) (by omega)
  rw [BitVec.toNat_shiftLeft, BitVec.toNat_setWidth_of_le (by decide), Nat.mod_eq_of_lt hb]

/-- The little-endian assembly is the same expression over natural numbers (R34). -/
theorem toNat_le32 (b0 b1 b2 b3 : Byte) :
    (le32 b0 b1 b2 b3).toNat =
      b0.toNat ||| (b1.toNat <<< 8) ||| (b2.toNat <<< 16) ||| (b3.toNat <<< 24) := by
  rw [le32, BitVec.toNat_or, BitVec.toNat_or, BitVec.toNat_or, BitVec.toNat_setWidth_of_le (by decide),
    toNat_setWidth_shiftLeft b1 (by decide), toNat_setWidth_shiftLeft b2 (by decide),
    toNat_setWidth_shiftLeft b3 (by decide)]

/-! ## Reads inside memory -/

/-- Below MEMSIZE a byte read gives a value (R32). -/
theorem exists_readU8_of_lt {s : State} {off : Nat} (h : s.pc.toNat + off < s.mem.size) :
    ∃ b, readU8 s off = some b :=
  Option.ne_none_iff_exists'.mp (mt (readU8_eq_none_iff s off).mp (Nat.not_le.mpr h))

/-- With its last byte below MEMSIZE a four-byte read gives a value (R34). -/
theorem exists_readU32_of_le {s : State} {off : Nat} (h : s.pc.toNat + off + 4 ≤ s.mem.size) :
    ∃ v, readU32 s off = some v :=
  Option.ne_none_iff_exists'.mp (mt (readU32_eq_none_iff s off).mp (Nat.not_lt.mpr h))

/-- The signed read is the unsigned one reinterpreted (R33). -/
theorem readI8_eq_map (s : State) (off : Nat) : readI8 s off = (readU8 s off).map sext32 := rfl

/-! ## The two statements -/

/-- Settles O11: a word that is read was assembled from four bytes of memory, and the assembly over bit
vectors is the one over numbers. -/
theorem wordReadIsLittleEndian : Obligations.WordReadIsLittleEndian := by
  refine ⟨fun s off => ⟨fun hin => ?_, (readU32_eq_none_iff s off).mpr⟩, by decide⟩
  obtain ⟨v, hv⟩ := exists_readU32_of_le hin
  obtain ⟨b0, b1, b2, b3, h0, h1, h2, h3, rfl⟩ := u32From_eq_some_iff.mp hv
  exact ⟨b0, b1, b2, b3, _, h0, h1, h2, h3, hv, toNat_le32 b0 b1 b2 b3⟩

/-- Settles O10: both reads give the one memory byte, or neither has a value. -/
theorem byteReads : Obligations.ByteReads := by
  refine ⟨fun s off => ⟨fun hin => ?_, fun hout => ?_⟩, by decide⟩
  · obtain ⟨b, hb⟩ := exists_readU8_of_lt hin
    refine ⟨b, hb, hb, ?_⟩
    rw [readI8_eq_map, hb, Option.map_some, sext32]
  · have hnone : readU8 s off = none := (readU8_eq_none_iff s off).mpr hout
    refine ⟨hnone, ?_⟩
    rw [readI8_eq_map, hnone, Option.map_none]

end Sys2Proof.Machine
end

section
/-! PROOFS. The list decoder and the encoder (spec/30_encoding.md): what `decode` answers for each table entry,
the bits of formats OI and J8, the handler table in masks, ranges and counts, and the absent opcodes on the
machine. -/

namespace Sys2Proof

/-! ## What the list decoder answers -/

/-- Without a byte there is no opcode. -/
theorem decode_nil : decode [] = .error .noOpcode := rfl

/-- A list whose bytes decode as a byte source gives that instruction and the bytes after its length. -/
theorem decode_of_decodeFrom_ok {bs : List Byte} {i : Instr} (h : decodeFrom (fun k => bs[k]?) = .ok i) :
    decode bs = .ok (i, bs.drop (instrLength i)) := by
  simp only [decode, h]

/-- A list whose bytes are refused as a byte source is refused for the same reason. -/
theorem decode_of_decodeFrom_error {bs : List Byte} {e : DecodeError}
    (h : decodeFrom (fun k => bs[k]?) = .error e) : decode bs = .error e := by
  simp only [decode, h]

/-- At an absent opcode the decoder reads no byte but the opcode (R68). -/
theorem decodeFrom_of_absent {byte : Nat → Option Byte} {op : Byte} (h0 : byte 0 = some op)
    (hop : lookupHandler op = .absent) : decodeFrom byte = .ok (.absent op) := by
  simp [decodeFrom, h0, hop]

/-- An absent opcode consumes its own byte alone (log 6). -/
theorem decode_absent {op : Byte} (h : lookupHandler op = .absent) (rest : List Byte) :
    decode (op :: rest) = .ok (.absent op, rest) :=
  decode_of_decodeFrom_ok (decodeFrom_of_absent rfl h)

/-- A MOV opcode takes the four bytes after it as its immediate (R51). -/
theorem decode_mov {op : Byte} (h : lookupHandler op = .mov) (b0 b1 b2 b3 : Byte) (rest : List Byte) :
    decode (op :: b0 :: b1 :: b2 :: b3 :: rest) = .ok (.mov (regOfOpcode op) (le32 b0 b1 b2 b3), rest) :=
  decode_of_decodeFrom_ok (by simp [decodeFrom, h, u32From])

/-- A MOV opcode with fewer than four bytes after it lacks an operand byte. -/
theorem decode_mov_of_short {op : Byte} (h : lookupHandler op = .mov) {operands : List Byte}
    (hlen : operands.length < 4) : decode (op :: operands) = .error (.operandMissing op) := by
  have hu : u32From (fun k => (op :: operands)[k]?) 1 = none := by
    refine u32From_eq_none_iff.mpr (.inr (.inr (.inr ?_)))
    exact List.getElem?_eq_none (Nat.succ_le_succ (Nat.le_of_lt_succ hlen))
  exact decode_of_decodeFrom_error (by simp [decodeFrom, h, hu])

/-- The JMP opcode takes the byte after it as its displacement (R52). -/
theorem decode_jmp (d : Byte) (rest : List Byte) : decode (0xEB#8 :: d :: rest) = .ok (.jmp d, rest) :=
  decode_of_decodeFrom_ok (by simp [decodeFrom])

/-- The JMP opcode alone lacks its displacement byte. -/
theorem decode_jmp_of_short : decode [0xEB#8] = .error (.operandMissing 0xEB#8) :=
  decode_of_decodeFrom_error (by simp [decodeFrom])

/-- Everything `decode` accepts: an absent opcode with its one byte, a MOV opcode with four bytes after it, or
the JMP opcode with one. -/
theorem decode_ok_cases {bs rest : List Byte} {i : Instr} (h : decode bs = .ok (i, rest)) :
    (∃ op, lookupHandler op = .absent ∧ bs = op :: rest ∧ i = .absent op) ∨
    (∃ op b0 b1 b2 b3, lookupHandler op = .mov ∧ bs = op :: b0 :: b1 :: b2 :: b3 :: rest ∧
      i = .mov (regOfOpcode op) (le32 b0 b1 b2 b3)) ∨
    ∃ d, bs = 0xEB#8 :: d :: rest ∧ i = .jmp d := by
  match bs with
  | [] =>
    rw [decode_nil] at h
    cases h
  | op :: operands =>
    cases hop : lookupHandler op with
    | absent =>
      rw [decode_absent hop] at h
      cases h
      exact .inl ⟨op, hop, rfl, rfl⟩
    | mov =>
      match operands with
      | b0 :: b1 :: b2 :: b3 :: bs' =>
        rw [decode_mov hop] at h
        cases h
        exact .inr (.inl ⟨op, b0, b1, b2, b3, hop, rfl, rfl⟩)
      | [] | [_] | [_, _] | [_, _, _] =>
        rw [decode_mov_of_short hop (by simp)] at h
        cases h
    | jmp =>
      obtain rfl := (lookupHandler_eq_jmp_iff op).mp hop
      match operands with
      | d :: bs' =>
        rw [decode_jmp] at h
        cases h
        exact .inr (.inr ⟨d, rfl, rfl⟩)
      | [] =>
        rw [decode_jmp_of_short] at h
        cases h

/-! ## The statements about decoding and encoding -/

/-- An absent instruction is well formed exactly when its opcode byte has no table entry. -/
theorem wellFormed_absent_iff (op : Byte) : WellFormed (.absent op) = true ↔ lookupHandler op = .absent := by
  rw [lookupHandler_eq_absent_iff, WellFormed, Bool.not_eq_true']

/-- Settles O2, by the table entry that each instruction's opcode byte has. -/
theorem decodeEncodeRoundTrip : Obligations.DecodeEncodeRoundTrip := by
  intro i rest hwf
  cases i with
  | mov r imm =>
    calc decode (encode (.mov r imm) ++ rest)
      _ = .ok (.mov (regOfOpcode (movOpcode r)) (le32 (byteOfWord imm 0) (byteOfWord imm 1)
            (byteOfWord imm 2) (byteOfWord imm 3)), rest) :=
          decode_mov (lookupHandler_movOpcode r) _ _ _ _ rest
      _ = .ok (.mov r imm, rest) := by rw [regOfOpcode_movOpcode, le32_byteOfWord]
  | jmp d => exact decode_jmp d rest
  | absent op => exact decode_absent ((wellFormed_absent_iff op).mp hwf) rest

/-- The five bytes of a MOV opcode and its operands are the encoding of what they decode to. -/
theorem encode_mov_le32 {op : Byte} (h : lookupHandler op = .mov) (b0 b1 b2 b3 : Byte) :
    encode (.mov (regOfOpcode op) (le32 b0 b1 b2 b3)) = [op, b0, b1, b2, b3] := by
  obtain ⟨h0, h1, h2, h3⟩ := byteOfWord_le32 b0 b1 b2 b3
  rw [encode, h0, h1, h2, h3, ← (lookupHandler_eq_mov_iff op).mp h]

/-- Settles O3: each form that decodes is the encoding of its instruction. -/
theorem decodedBytesAreTheEncoding : Obligations.DecodedBytesAreTheEncoding := by
  intro bs i rest h
  obtain ⟨op, hop, rfl, rfl⟩ | ⟨op, b0, b1, b2, b3, hop, rfl, rfl⟩ | ⟨d, rfl, rfl⟩ := decode_ok_cases h
  · exact ⟨(wellFormed_absent_iff op).mpr hop, rfl⟩
  · rw [encode_mov_le32 hop]
    exact ⟨rfl, rfl⟩
  · exact ⟨rfl, rfl⟩

/-- Settles O4, by the opcode's table entry and the number of bytes after it. -/
theorem decodeRefusesOnlyMissingBytes : Obligations.DecodeRefusesOnlyMissingBytes := by
  refine ⟨decode_nil, fun op operands => ?_⟩
  cases hop : lookupHandler op with
  | absent =>
    exact ⟨fun _ => ⟨_, _, decode_absent hop operands⟩, fun hlt => by simp [handlerLength] at hlt⟩
  | mov =>
    refine ⟨fun hle => ?_, fun hlt => decode_mov_of_short hop (Nat.lt_of_succ_lt_succ hlt)⟩
    match operands with
    | b0 :: b1 :: b2 :: b3 :: rest => exact ⟨_, _, decode_mov hop b0 b1 b2 b3 rest⟩
    | [] | [_] | [_, _] | [_, _, _] => simp [handlerLength] at hle
  | jmp =>
    obtain rfl := (lookupHandler_eq_jmp_iff op).mp hop
    match operands with
    | d :: rest => exact ⟨fun _ => ⟨_, _, decode_jmp d rest⟩, fun hlt => by simp [handlerLength] at hlt⟩
    | [] => exact ⟨fun hle => by simp [handlerLength] at hle, fun _ => decode_jmp_of_short⟩

/-- Settles O1, by running the decoder on the five words. -/
theorem sampleWordsDecode : Obligations.SampleWordsDecode :=
  ⟨rfl, rfl, rfl, decode_absent (by decide) _, decode_jmp_of_short⟩

/-! ## The register field -/

/-- The numbering of the registers inverts the choice by code (R11). -/
theorem regIndex_regOfCode (c : BitVec 3) : regIndex (regOfCode c) = c.toNat := by
  revert c
  decide

/-- The destination's index is the low three opcode bits (R55). -/
theorem regIndex_regOfOpcode (op : Byte) : regIndex (regOfOpcode op) = (op.extractLsb' 0 3).toNat :=
  regIndex_regOfCode _

/-- In 0xB8..0xBF the low three bits are the distance from 0xB8, which is a multiple of 8. -/
theorem toNat_lowBits_of_range {op : Byte} (hlo : 0xB8 ≤ op.toNat) (hhi : op.toNat ≤ 0xBF) :
    (op.extractLsb' 0 3).toNat = op.toNat - 0xB8 := by
  rw [BitVec.extractLsb'_toNat, Nat.shiftRight_zero]
  omega

/-- Settles O7, both expressions of R55 from the low three bits. -/
theorem registerFieldIsLowOpcodeBits : Obligations.RegisterFieldIsLowOpcodeBits := by
  refine ⟨fun op hlo hhi => ⟨regIndex_regOfOpcode op, ?_⟩, by decide⟩
  rw [regIndex_regOfOpcode, toNat_lowBits_of_range hlo hhi]

/-! ## The two formats -/

/-- The opcodes of format OI are those with `10111` in bits 7:3 (R51). -/
theorem lookupHandler_eq_mov_iff_highBits (op : Byte) :
    lookupHandler op = .mov ↔ op.extractLsb' 3 5 = 0b10111#5 := by
  revert op
  decide

/-- Settles O5: the opcode's high bits select the table entry, its low bits the register, and the immediate is
the little-endian assembly of the other four bytes. -/
theorem movFormatBits : Obligations.MovFormatBits := by
  refine ⟨fun b0 b1 b2 b3 b4 hbits => ?_, fun r imm => ?_⟩
  · have hop := (lookupHandler_eq_mov_iff_highBits b0).mpr hbits
    exact ⟨_, _, decode_mov hop b1 b2 b3 b4 [], regIndex_regOfOpcode b0, byteOfWord_le32 b1 b2 b3 b4⟩
  · have hlow : ((movOpcode r).extractLsb' 0 3).toNat = regIndex r := by
      rw [← regIndex_regOfOpcode, regOfOpcode_movOpcode]
    exact ⟨_, _, _, _, _, rfl, (lookupHandler_eq_mov_iff_highBits _).mp (lookupHandler_movOpcode r), hlow,
      rfl, rfl, rfl, rfl⟩

/-- `sext_32` is the two's-complement reading of a byte (R7, R33). -/
theorem sext32_eq_toInt (b : Byte) : sext32 b = b.toInt := by
  rw [sext32, BitVec.toInt_eq_toNat_cond]
  split <;> split <;> omega

/-- Settles O6, by the decoder's JMP equation and the signed reading. -/
theorem jmpFormatBits : Obligations.JmpFormatBits := fun d =>
  ⟨decode_jmp d [], rfl, sext32_eq_toInt d⟩

/-! ## The handler table -/

/-- The MOV entries in match/mask form (R56). -/
theorem lookupHandler_eq_mov_iff_mask (op : Byte) :
    lookupHandler op = .mov ↔ op &&& 0xF8#8 = 0xB8#8 := by
  revert op
  decide

/-- The absent entries in the ranges of R57. -/
theorem lookupHandler_eq_absent_iff_ranges (op : Byte) : lookupHandler op = .absent ↔
    op.toNat ≤ 0xB7 ∨ (0xC0 ≤ op.toNat ∧ op.toNat ≤ 0xEA) ∨ 0xEC ≤ op.toNat := by
  revert op
  decide

/-- The whole table in match/mask form; JMP's mask keeps every bit (R56). -/
theorem lookupHandler_eq_ite_mask (op : Byte) : lookupHandler op =
    if op &&& 0xF8#8 = 0xB8#8 then .mov else if op &&& 0xFF#8 = 0xEB#8 then .jmp else .absent := by
  rw [show op &&& 0xFF#8 = op from BitVec.and_allOnes]
  cases hop : lookupHandler op with
  | mov => rw [if_pos ((lookupHandler_eq_mov_iff_mask op).mp hop)]
  | jmp =>
    obtain rfl := (lookupHandler_eq_jmp_iff op).mp hop
    rfl
  | absent =>
    rw [if_neg, if_neg]
    · rw [← lookupHandler_eq_jmp_iff, hop]
      decide
    · rw [← lookupHandler_eq_mov_iff_mask, hop]
      decide

/-! ## How many opcodes have which entry -/

/-- How often a test holds below `n` is the size of the set where it holds. -/
theorem countP_range_eq_card {p : Nat → Bool} {n : Nat} {S : Finset Nat}
    (hS : ∀ k, k ∈ S ↔ k < n ∧ p k = true) : (List.range n).countP p = S.card := by
  have hfilter : S = (Finset.range n).filter (fun k => p k = true) := by
    ext k
    rw [hS, Finset.mem_filter, Finset.mem_range]
  rw [hfilter, ← Nat.count_eq_card_filter_range, Nat.count]
  simp only [Bool.decide_eq_true]

/-- The number of opcode bytes with a table entry is the size of the set of their values. -/
theorem countP_lookupHandler {h : Handler} {S : Finset Nat} (hlt : ∀ n ∈ S, n < 256)
    (hS : ∀ op, lookupHandler op = h ↔ op.toNat ∈ S) :
    (List.range 256).countP (fun n => lookupHandler (BitVec.ofNat 8 n) == h) = S.card := by
  refine countP_range_eq_card fun n => ?_
  have hmem (hn : n < 256) : lookupHandler (BitVec.ofNat 8 n) = h ↔ n ∈ S := by
    rw [hS, BitVec.toNat_ofNat, Nat.mod_eq_of_lt hn]
  rw [beq_iff_eq]
  exact ⟨fun hS => ⟨hlt n hS, (hmem (hlt n hS)).mpr hS⟩, fun ⟨hn, hop⟩ => (hmem hn).mp hop⟩

/-- The values of the opcode bytes without a handler: all but MOV's eight and JMP's one (R57). -/
def absentOpcodes : Finset Nat := Finset.range 256 \ insert 0xEB (Finset.Icc 0xB8 0xBF)

theorem mem_absentOpcodes_iff (n : Nat) :
    n ∈ absentOpcodes ↔ n < 256 ∧ (n ≤ 0xB7 ∨ (0xC0 ≤ n ∧ n ≤ 0xEA) ∨ 0xEC ≤ n) := by
  simp only [absentOpcodes, Finset.mem_sdiff, Finset.mem_range, Finset.mem_insert, Finset.mem_Icc]
  omega

theorem card_absentOpcodes : absentOpcodes.card = 247 := by
  have hsub : insert 0xEB (Finset.Icc 0xB8 0xBF) ⊆ Finset.range 256 := by decide
  rw [absentOpcodes, Finset.card_sdiff_of_subset hsub, Finset.card_range]
  rfl

theorem lookupHandler_eq_absent_iff_mem (op : Byte) :
    lookupHandler op = .absent ↔ op.toNat ∈ absentOpcodes := by
  rw [lookupHandler_eq_absent_iff_ranges, mem_absentOpcodes_iff, and_iff_right op.isLt]

/-- The MOV entries as a range (R56). -/
theorem lookupHandler_eq_mov_iff_mem (op : Byte) :
    lookupHandler op = .mov ↔ op.toNat ∈ Finset.Icc 0xB8 0xBF := by
  rw [Finset.mem_Icc]
  revert op
  decide

theorem lookupHandler_eq_jmp_iff_mem (op : Byte) :
    lookupHandler op = .jmp ↔ op.toNat ∈ ({0xEB} : Finset Nat) := by
  rw [lookupHandler_eq_jmp_iff, Finset.mem_singleton, ← BitVec.toNat_inj]
  rfl

/-- Settles O8: the three counts are the sizes of the three sets of opcode values. -/
theorem handlerTableIsTheOpcodeMap : Obligations.HandlerTableIsTheOpcodeMap :=
  ⟨lookupHandler_eq_ite_mask, lookupHandler_eq_absent_iff_ranges,
    countP_lookupHandler (by decide) lookupHandler_eq_mov_iff_mem,
    countP_lookupHandler (by decide) lookupHandler_eq_jmp_iff_mem,
    (countP_lookupHandler (fun n hn => ((mem_absentOpcodes_iff n).mp hn).1)
      lookupHandler_eq_absent_iff_mem).trans card_absentOpcodes⟩

/-- The ranges of R57 hold 247 bytes. -/
theorem countP_absent_ranges : (List.range 256).countP
    (fun n => decide (n ≤ 0xB7 ∨ (0xC0 ≤ n ∧ n ≤ 0xEA) ∨ 0xEC ≤ n)) = 247 := by
  rw [countP_range_eq_card fun n => by rw [mem_absentOpcodes_iff, decide_eq_true_iff], card_absentOpcodes]

/-! ## Registration -/

theorem registerHandler_same (t : HandlerTable) (op : Byte) (h : Handler) : registerHandler t op h op = h :=
  if_pos rfl

theorem registerHandler_other (t : HandlerTable) {op o : Byte} (h : Handler) (ho : o ≠ op) :
    registerHandler t op h o = t o :=
  if_neg ho

/-- The last of two registrations of one opcode wins (R60). -/
theorem registerHandler_registerHandler (t : HandlerTable) (op : Byte) (h h' : Handler) :
    registerHandler (registerHandler t op h) op h' = registerHandler t op h' := by
  funext o
  by_cases ho : o = op
  · rw [ho, registerHandler_same, registerHandler_same]
  · rw [registerHandler_other _ _ ho, registerHandler_other _ _ ho, registerHandler_other _ _ ho]

/-- Settles O9, by what a registration does at its opcode and elsewhere. -/
theorem lastRegistrationWins : Obligations.LastRegistrationWins :=
  ⟨fun t op h h' => ⟨registerHandler_registerHandler t op h h', registerHandler_same t op h,
    fun _ ho => registerHandler_other t h ho⟩, fun _ => rfl⟩

end Sys2Proof

namespace Sys2Proof.Machine

/-! ## The absent opcodes on the machine -/

/-- Settles O14: the effect is the raise, which changes `run` alone. -/
theorem absentOpcodeCompletes : Obligations.AbsentOpcodeCompletes := fun op s =>
  ⟨raiseUnimplemented op s, exec_absent op s, raiseUnimplemented_run op s, raiseUnimplemented_pc op s,
    readReg_raiseUnimplemented op s, rfl, fun _ => rfl⟩

/-- A RUNNING machine at an opcode without a handler raises Unimplemented of it (R69). -/
theorem step_of_absent {s : State} {op : Byte} (hr : s.run = .running) (h0 : readU8 s 0 = some op)
    (hop : lookupHandler op = .absent) : step s = .next (raiseUnimplemented op s) := by
  have hfetch : fetch s = .ok (.absent op) := decodeFrom_of_absent h0 hop
  rw [step_of_fetch_ok hr ((fetchable_iff s).mpr (lt_of_readU8 h0)) hfetch, exec_absent]
  rfl

/-- Settles O20: the step is the raise, and from HALTED there is no transition. -/
theorem absentOpcodeStep : Obligations.AbsentOpcodeStep := by
  refine ⟨fun s op hr h0 hrange => ?_, by decide, by decide, by decide, countP_absent_ranges⟩
  have hop := (lookupHandler_eq_absent_iff_ranges op).mpr hrange
  refine ⟨raiseUnimplemented op s, step_of_absent hr h0 hop, rfl, h0, fun u hu => ?_⟩
  rw [step_of_halted (raiseUnimplemented_run op s)] at hu
  cases hu

end Sys2Proof.Machine
end

section
/-! PROOFS. Fetch, dispatch and the end of an iteration (spec/40_fetch_dispatch.md): from the bytes at the program
counter to the step they give, which halt an iteration records, the counts of a run, and the trace pair. -/

namespace Sys2Proof

/-! ## Decoding a byte source whose bytes are known -/

/-- At a MOV opcode the decoder reads the four-byte immediate after it (R51). -/
theorem decodeFrom_of_mov {byte : Nat → Option Byte} {op : Byte} {imm : Word} (h0 : byte 0 = some op)
    (hop : lookupHandler op = .mov) (himm : u32From byte 1 = some imm) :
    decodeFrom byte = .ok (.mov (regOfOpcode op) imm) := by
  simp [decodeFrom, h0, hop, himm]

/-- At the JMP opcode the decoder reads the displacement byte after it (R52). -/
theorem decodeFrom_of_jmp {byte : Nat → Option Byte} {d : Byte} (h0 : byte 0 = some 0xEB#8)
    (hd : byte 1 = some d) : decodeFrom byte = .ok (.jmp d) := by
  simp [decodeFrom, h0, hd]

/-- A decoded table word is a decoded byte list. -/
theorem decode_of_decodeTableWord {nbits w : Nat} {i : Instr} (h : decodeTableWord nbits w = some i) :
    ∃ rest, decode (tableWordBytes nbits w) = .ok (i, rest) := by
  unfold decodeTableWord at h
  split at h
  · cases h
  · rename_i rest hd
    cases h
    exact ⟨rest, hd⟩

/-- A table word is padded to the longest instruction (R50). -/
theorem length_tableWordBytes (nbits w : Nat) : (tableWordBytes nbits w).length = 5 := rfl

end Sys2Proof

namespace Sys2Proof.Machine

/-! ## From the bytes at the program counter to the step -/

/-- The guard's halt at or above MEMSIZE (R67). -/
theorem step_of_size_le_pc {s : State} (hr : s.run = .running) (hge : s.mem.size ≤ s.pc.toNat) :
    step s = .next (raiseOutOfBounds s) :=
  step_of_not_fetchable hr ((fetchable_eq_false_iff s).mpr hge)

/-- A fetch that gives an instruction has passed the guard. -/
theorem fetchable_of_fetch_ok {s : State} {i : Instr} (h : fetch s = .ok i) : fetchable s = true := by
  rcases decodeFrom_cases (readU8 s) with ⟨-, hd⟩ | ⟨op, h0, -⟩
  · rw [fetch, hd] at h
    cases h
  · exact (fetchable_iff s).mpr (lt_of_readU8 h0)

/-- `exec` of every instruction answers a state in every state: a cut-off instruction answers its halt. -/
theorem exists_exec_eq_next (i : Instr) (s : State) : ∃ t, exec i s = .next t := by
  cases i with
  | mov r imm =>
    rw [exec_mov, withOperands]
    split <;> exact ⟨_, rfl⟩
  | jmp d =>
    rw [exec_jmp, withOperands]
    split <;> exact ⟨_, rfl⟩
  | absent op => exact ⟨_, exec_absent op s⟩

/-- A step that has fetched an instruction answers what `exec` of it answers, after the sentinel check (R66). -/
theorem step_of_fetch_of_exec {s t : State} {i : Instr} (hr : s.run = .running) (hi : fetch s = .ok i)
    (ht : exec i s = .next t) : step s = .next (sentinelCheck t) := by
  rw [step_of_fetch_ok hr (fetchable_of_fetch_ok hi) hi, ht, afterHandler]

/-- MOV whose five bytes lie in memory completes as one step (R80). -/
theorem step_of_mov {s : State} {op : Byte} (hr : s.run = .running) (h0 : readU8 s 0 = some op)
    (hop : lookupHandler op = .mov) (hin : s.pc.toNat + 5 ≤ s.mem.size) :
    ∃ imm, step s = .next (sentinelCheck (setPc (writeReg s (regOfOpcode op) imm) (pcAfter s 5))) := by
  obtain ⟨imm, himm⟩ : ∃ imm, readU32 s 1 = some imm := exists_readU32_of_le hin
  refine ⟨imm, step_of_fetch_of_exec hr (decodeFrom_of_mov h0 hop himm) ?_⟩
  rw [exec_mov, withOperands_of_le _ hin]

/-- JMP with its displacement byte in memory completes as one step (R85). -/
theorem step_of_jmp {s : State} {d : Byte} (hr : s.run = .running) (h0 : readU8 s 0 = some 0xEB#8)
    (hd : readU8 s 1 = some d) : step s = .next (sentinelCheck (setPc s (jumpTarget d))) := by
  have hin : s.pc.toNat + 2 ≤ s.mem.size := lt_of_readU8 hd
  refine step_of_fetch_of_exec hr (decodeFrom_of_jmp h0 hd) ?_
  rw [exec_jmp, withOperands_of_le _ hin]

/-- The machine fetches what the list decoder reads from the bytes at the program counter. -/
theorem fetch_of_decode {s : State} {bs rest : List Byte} {i : Instr}
    (hbytes : ∀ k b, bs[k]? = some b → readU8 s k = some b) (h : decode bs = .ok (i, rest)) :
    fetch s = .ok i := by
  obtain ⟨op, hop, rfl, rfl⟩ | ⟨op, b0, b1, b2, b3, hop, rfl, rfl⟩ | ⟨d, rfl, rfl⟩ := decode_ok_cases h
  · exact decodeFrom_of_absent (hbytes 0 op rfl) hop
  · refine decodeFrom_of_mov (hbytes 0 op rfl) hop (u32From_eq_some_iff.mpr ?_)
    exact ⟨b0, b1, b2, b3, hbytes 1 b0 rfl, hbytes 2 b1 rfl, hbytes 3 b2 rfl, hbytes 4 b3 rfl, rfl⟩
  · exact decodeFrom_of_jmp (hbytes 0 _ rfl) (hbytes 1 d rfl)

/-- Bytes at the program counter that decode are what the step executes (R66, R71). -/
theorem exec_and_step_of_decode {s : State} {bs rest : List Byte} {i : Instr} (hr : s.run = .running)
    (hbytes : ∀ k b, bs[k]? = some b → readU8 s k = some b) (h : decode bs = .ok (i, rest)) :
    ∃ t, exec i s = .next t ∧ step s = .next (sentinelCheck t) := by
  obtain ⟨t, ht⟩ := exists_exec_eq_next i s
  exact ⟨t, ht, step_of_fetch_of_exec hr (fetch_of_decode hbytes h) ht⟩

/-- The sentinel check as one test (R71). -/
theorem sentinelCheck_eq_ite (s : State) :
    sentinelCheck s = if s.run = .running ∧ s.pc = 0 then halt .programEnd s else s := by
  obtain ⟨hr, hpc, h⟩ | ⟨-, hpc, h⟩ | ⟨c, hc, h⟩ := sentinelCheck_cases s
  · rw [h, if_pos ⟨hr, hpc⟩]
  · rw [h, if_neg fun hand => hpc hand.2]
  · rw [h, if_neg]
    simp [hc]

/-- The sentinel check does nothing away from `pc = 0`. -/
theorem sentinelCheck_of_pc_ne_zero {s : State} (h : s.pc ≠ 0) : sentinelCheck s = s := by
  rw [sentinelCheck_eq_ite, if_neg fun hand => h hand.2]

/-- Settles O17, by fetching what the list decoder reads. -/
theorem stepRunsDecodedInstruction : Obligations.StepRunsDecodedInstruction := by
  intro s bs rest i hr hbytes hdec
  obtain ⟨hwf, -⟩ := decodedBytesAreTheEncoding bs i rest hdec
  obtain ⟨t, ht, hs⟩ := exec_and_step_of_decode hr hbytes hdec
  rw [sentinelCheck_eq_ite] at hs
  exact ⟨hwf, t, ht, hs⟩

/-! ## A word placed at the program counter -/

/-- The bytes placed at the program counter are the bytes read from there, where they fit in memory. -/
theorem readU8_placeAtPc {s : State} {bs : List Byte} {k : Nat} {b : Byte} (hwf : s.mem.wf)
    (hfit : s.pc.toNat + bs.length ≤ s.mem.size) (hb : bs[k]? = some b) :
    readU8 (placeAtPc s bs) k = some b := by
  obtain ⟨hk, -⟩ := List.getElem?_eq_some_iff.mp hb
  rw [readU8, placeAtPc_pc, placeAtPc_mem, Memory.read_writeBytes hwf _ _ _ hfit, if_pos (by omega),
    Nat.add_sub_cancel_left, hb]

/-- Settles O44: the placed bytes are read back, so the step executes what they decode to. -/
theorem placedWordRunsNext : Obligations.PlacedWordRunsNext := by
  intro s nbits w i hr hwf hfit hword
  obtain ⟨rest, hdec⟩ := decode_of_decodeTableWord hword
  rw [← length_tableWordBytes nbits w] at hfit
  exact exec_and_step_of_decode (s := s.withFetchWord nbits w) hr
    (fun _ _ hb => readU8_placeAtPc hwf hfit hb) hdec

/-! ## Which halt an iteration records -/

/-- At a fetched opcode, an executed instruction is a handler with all its bytes in memory. -/
theorem executesInstruction_iff_of_readU8 {s : State} {op : Byte} (hr : s.run = .running)
    (h0 : readU8 s 0 = some op) : executesInstruction s = true ↔
      lookupHandler op ≠ .absent ∧ s.pc.toNat + handlerLength (lookupHandler op) ≤ s.mem.size := by
  simp [executesInstruction_iff, hr, h0]

theorem executesInstruction_of_mov {s : State} {op : Byte} (hr : s.run = .running)
    (h0 : readU8 s 0 = some op) (hop : lookupHandler op = .mov) (hin : s.pc.toNat + 5 ≤ s.mem.size) :
    executesInstruction s = true := by
  rw [executesInstruction_iff_of_readU8 hr h0, hop]
  exact ⟨by decide, hin⟩

theorem executesInstruction_of_jmp {s : State} {op : Byte} (hr : s.run = .running)
    (h0 : readU8 s 0 = some op) (hop : lookupHandler op = .jmp) (hin : s.pc.toNat + 2 ≤ s.mem.size) :
    executesInstruction s = true := by
  rw [executesInstruction_iff_of_readU8 hr h0, hop]
  exact ⟨by decide, hin⟩

/-- An executed instruction's step is a state in which the machine is still RUNNING, after the sentinel
check. -/
theorem step_of_executes {s : State} (hx : executesInstruction s = true) :
    ∃ u, u.run = .running ∧ step s = .next (sentinelCheck u) := by
  obtain ⟨hr, op, h0, hne, hin⟩ := (executesInstruction_iff s).mp hx
  cases hop : lookupHandler op with
  | absent => exact absurd hop hne
  | mov =>
    rw [hop] at hin
    obtain ⟨imm, hs⟩ := step_of_mov hr h0 hop hin
    refine ⟨_, ?_, hs⟩
    exact hr
  | jmp =>
    rw [hop] at hin
    obtain rfl := (lookupHandler_eq_jmp_iff op).mp hop
    obtain ⟨d, hd⟩ : ∃ d, readU8 s 1 = some d := exists_readU8_of_lt hin
    refine ⟨_, ?_, step_of_jmp hr h0 hd⟩
    exact hr

/-- An executed instruction leaves the machine RUNNING, or halts it with program_end at `pc = 0` (R71). -/
theorem step_run_of_executes {s t : State} (h : step s = .next t) (hx : executesInstruction s = true) :
    t.run = if t.pc = 0 then .halted .programEnd else .running := by
  obtain ⟨u, hu, hs⟩ := step_of_executes hx
  rw [h] at hs
  cases hs
  rw [sentinelCheck_pc, sentinelCheck_run_of_running hu]

/-- A step that executes no instruction halts with out_of_bounds or at an absent opcode (R70). -/
theorem step_run_of_not_executes {s t : State} (h : step s = .next t)
    (hx : ¬ executesInstruction s = true) :
    t.run = .halted .outOfBounds ∨ ∃ op, readU8 s 0 = some op ∧ lookupHandler op = .absent ∧
      t.run = .halted (.unimplementedOpcode op) := by
  obtain ⟨hr, ⟨-, rfl⟩ | ⟨op, -, -, rfl⟩ | ⟨op, h0, hop, rfl⟩ | ⟨op, imm, h0, hop, hin, -⟩ |
    ⟨op, d, h0, hop, -, hin, -⟩⟩ := step_next_cases h
  · exact .inl rfl
  · exact .inl rfl
  · exact .inr ⟨op, h0, hop, rfl⟩
  · exact absurd (executesInstruction_of_mov hr h0 hop hin) hx
  · exact absurd (executesInstruction_of_jmp hr h0 hop hin) hx

/-- Settles O22, clause by clause: the guard, the absent opcode, and then whether the handler completes. -/
theorem haltReasonsInOrder : Obligations.HaltReasonsInOrder := by
  intro s t hr h
  refine ⟨fun hge => ?_, fun op h0 => ⟨fun hop => ?_, fun hop hcut => ?_, fun hop hin => ?_⟩⟩
  · rw [step_of_size_le_pc hr hge] at h
    cases h
    rfl
  · rw [step_of_absent hr h0 hop] at h
    cases h
    rfl
  · have hx : ¬ executesInstruction s = true := fun hx =>
      absurd ((executesInstruction_iff_of_readU8 hr h0).mp hx).2 (Nat.not_le.mpr hcut)
    obtain hrun | ⟨op', h0', hop', -⟩ := step_run_of_not_executes h hx
    · exact hrun
    · obtain rfl : op = op' := Option.some.inj (h0.symm.trans h0')
      exact absurd hop' hop
  · exact step_run_of_executes h ((executesInstruction_iff_of_readU8 hr h0).mpr ⟨hop, hin⟩)

/-- Settles O26: a completed handler ends in one of the two run states, and every other iteration in neither. -/
theorem executedInstructionsAreCompletedHandlers :
    Obligations.ExecutedInstructionsAreCompletedHandlers := by
  intro s hr
  constructor
  · intro hx
    obtain ⟨u, -, hs⟩ := step_of_executes hx
    refine ⟨_, hs, ?_⟩
    rw [step_run_of_executes hs hx]
    split
    · exact .inr rfl
    · exact .inl rfl
  · rintro ⟨t, h, hend⟩
    by_contra hx
    obtain hrun | ⟨op, -, -, hrun⟩ := step_run_of_not_executes h hx <;> simp [hrun] at hend

/-! ## How a step ends in program_end -/

/-- A step ends in program_end exactly if it executes an instruction that leaves `pc = 0` (R71, R103). -/
theorem step_run_eq_programEnd_iff {s t : State} (h : step s = .next t) :
    t.run = .halted .programEnd ↔ executesInstruction s = true ∧ t.pc = 0 := by
  by_cases hx : executesInstruction s = true
  · simp [step_run_of_executes h hx, hx]
  · obtain hrun | ⟨op, -, -, hrun⟩ := step_run_of_not_executes h hx <;> simp [hrun, hx]

/-- The one displacement byte whose target is 0 (R87). -/
theorem jumpTarget_eq_zero_iff (d : Byte) : jumpTarget d = 0 ↔ d = 0xFE#8 := by
  revert d
  decide

/-- The one address from which MOV's advance wraps to 0 (R82). -/
theorem pcAfter_five_eq_zero_iff (s : State) : pcAfter s 5 = 0 ↔ s.pc = 0xFFFFFFFB#32 := by
  rw [pcAfter_eq_add]
  bv_omega

/-- Settles O24: only MOV and JMP complete, and each has one way to leave `pc = 0`. -/
theorem programEndExactlyWhen : Obligations.ProgramEndExactlyWhen := by
  intro s t hsize h
  obtain ⟨hr, -⟩ := step_next_cases h
  rw [step_run_eq_programEnd_iff h]
  constructor
  · rintro ⟨hx, hpc⟩
    obtain ⟨op, h0, ⟨hop, hmov⟩ | ⟨hop, d, hd, hjmp⟩⟩ := step_pc_of_executes h hx
    · have htop : s.pc = 0xFFFFFFFB#32 := (pcAfter_five_eq_zero_iff s).mp (hmov.symm.trans hpc)
      obtain ⟨-, hin⟩ := (executesInstruction_iff_of_readU8 hr h0).mp hx
      rw [hop, htop] at hin
      exact .inr ⟨hsize.antisymm hin, htop, op, h0, hop⟩
    · obtain rfl := (lookupHandler_eq_jmp_iff op).mp hop
      obtain rfl := (jumpTarget_eq_zero_iff d).mp (hjmp.symm.trans hpc)
      exact .inl ⟨h0, hd⟩
  · rintro (⟨h0, hd⟩ | ⟨htop, hpc, op, h0, hop⟩)
    · refine ⟨executesInstruction_of_jmp hr h0 lookupHandler_jmpOpcode (lt_of_readU8 hd), ?_⟩
      rw [step_of_jmp hr h0 hd] at h
      cases h
      rw [sentinelCheck_pc]
      exact (jumpTarget_eq_zero_iff _).mpr rfl
    · have hin : s.pc.toNat + 5 ≤ s.mem.size := by
        rw [hpc, htop]
        decide
      refine ⟨executesInstruction_of_mov hr h0 hop hin, ?_⟩
      obtain ⟨imm, hs⟩ := step_of_mov hr h0 hop hin
      rw [hs] at h
      cases h
      rw [sentinelCheck_pc]
      exact (pcAfter_five_eq_zero_iff s).mpr hpc

/-! ## The end of memory -/

/-- Below 2^32 the straight-line advance does not wrap. -/
theorem toNat_pcAfter_of_lt {s : State} {n : Nat} (h : s.pc.toNat + n < Config.addressSpace) :
    (pcAfter s n).toNat = s.pc.toNat + n := by
  rw [pcAfter_eq_add, BitVec.toNat_add, BitVec.toNat_ofNat, Nat.add_mod_mod]
  exact Nat.mod_eq_of_lt h

/-- Settles O33: the advance to MEMSIZE does not wrap, so the sentinel check does nothing and the guard is
next. -/
theorem movAtTheEndOfMemory : Obligations.MovAtTheEndOfMemory := by
  intro s op hr h0 hop hend hsize
  obtain ⟨imm, hs⟩ := step_of_mov hr h0 hop hend.le
  have hpc : (pcAfter s 5).toNat = s.mem.size :=
    (toNat_pcAfter_of_lt (hend.trans_lt hsize)).trans hend
  have hne : pcAfter s 5 ≠ 0 := fun hzero => by
    have hsize0 : 0 = s.mem.size := by rwa [hzero] at hpc
    omega
  rw [sentinelCheck_of_pc_ne_zero hne] at hs
  exact ⟨_, hs, hr, hpc, step_of_size_le_pc hr hpc.ge⟩

/-! ## Self-jumps -/

/-- A jump to its own address, other than 0, answers the very same state. -/
theorem step_of_selfJump {s : State} {d : Byte} (hr : s.run = .running) (h0 : readU8 s 0 = some 0xEB#8)
    (hd : readU8 s 1 = some d) (hself : jumpTarget d = s.pc) (hpc : s.pc ≠ 0) : step s = .next s := by
  have hset : setPc s s.pc = s := rfl
  rw [step_of_jmp hr h0 hd, hself, hset, sentinelCheck_of_pc_ne_zero hpc]

/-- A state that steps to itself is what every run from it answers. -/
theorem run_of_step_self {s : State} (h : step s = .next s) (n : Nat) :
    Sys2Proof.core.run n s = .next s := by
  induction n with
  | zero => rfl
  | succ n ih => rw [run_succ_of_next n h, ih]

/-- Settles O31: each step of the self-jump answers the same state. -/
theorem selfJumpRunsForever : Obligations.SelfJumpRunsForever := by
  intro s d hr h0 hd hself hpc n
  exact run_of_step_self (step_of_selfJump hr h0 hd hself hpc) n

/-! ## Counting iterations -/

/-- A RUNNING machine performs its next iteration (R127). -/
theorem exists_step_of_running {s : State} (hr : s.run = .running) : ∃ t, step s = .next t := by
  cases hf : fetchable s with
  | false => exact ⟨_, step_of_not_fetchable hr hf⟩
  | true =>
    cases hi : fetch s with
    | error e => exact ⟨_, step_of_fetch_error hr hf hi⟩
    | ok i =>
      obtain ⟨t, ht⟩ := exists_exec_eq_next i s
      exact ⟨_, step_of_fetch_of_exec hr hi ht⟩

theorem iterationCount_succ_of_next {s t : State} (n : Nat) (h : step s = .next t) :
    iterationCount (n + 1) s = 1 + iterationCount n t := by
  simp [iterationCount, h]

theorem executedCount_succ_of_next {s t : State} (n : Nat) (h : step s = .next t) :
    executedCount (n + 1) s = (if executesInstruction s then 1 else 0) + executedCount n t := by
  simp [executedCount, h]

/-- A HALTED machine performs no iteration (R72). -/
theorem iterationCount_of_halted {s : State} {c : HaltReason} (n : Nat) (hr : s.run = .halted c) :
    iterationCount n s = 0 := by
  cases n <;> simp [iterationCount, step_of_halted hr]

theorem executedCount_of_halted {s : State} {c : HaltReason} (n : Nat) (hr : s.run = .halted c) :
    executedCount n s = 0 := by
  cases n <;> simp [executedCount, step_of_halted hr]

/-- Executed instructions are among the iterations (R76). -/
theorem executedCount_le_iterationCount (n : Nat) (s : State) :
    executedCount n s ≤ iterationCount n s := by
  induction n generalizing s with
  | zero => exact le_rfl
  | succ n ih =>
    cases hr : s.run with
    | halted c => rw [executedCount_of_halted _ hr, iterationCount_of_halted _ hr]
    | running =>
      obtain ⟨t, ht⟩ := exists_step_of_running hr
      rw [executedCount_succ_of_next n ht, iterationCount_succ_of_next n ht]
      have hone : (if executesInstruction s then 1 else 0) ≤ 1 := by split <;> decide
      exact Nat.add_le_add hone (ih t)

/-- There are no more iterations than were asked for. -/
theorem iterationCount_le (n : Nat) (s : State) : iterationCount n s ≤ n := by
  induction n generalizing s with
  | zero => exact le_rfl
  | succ n ih =>
    cases hr : s.run with
    | halted c =>
      rw [iterationCount_of_halted _ hr]
      exact Nat.zero_le _
    | running =>
      obtain ⟨t, ht⟩ := exists_step_of_running hr
      rw [iterationCount_succ_of_next n ht, Nat.add_comm]
      exact Nat.succ_le_succ (ih t)

/-- A run that stops short of its fuel has reached HALTED. -/
theorem exists_reaches_halted_of_iterationCount_lt {n : Nat} {s : State} (h : iterationCount n s < n) :
    ∃ t c, Reaches s t ∧ t.run = .halted c := by
  induction n generalizing s with
  | zero => cases h
  | succ n ih =>
    cases hr : s.run with
    | halted c => exact ⟨s, c, .refl s, hr⟩
    | running =>
      obtain ⟨t, ht⟩ := exists_step_of_running hr
      rw [iterationCount_succ_of_next n ht] at h
      obtain ⟨u, c, hreach, hu⟩ := ih (s := t) (by omega)
      exact ⟨u, c, hreach.head ht, hu⟩

/-- Settles O27, by the three facts about the counts, each an induction on the fuel. -/
theorem iterationCounts : Obligations.IterationCounts := fun n s =>
  ⟨executedCount_le_iterationCount n s, iterationCount_le n s,
    exists_reaches_halted_of_iterationCount_lt⟩

/-! ## The trace pair and the guard -/

/-- A RUNNING machine below MEMSIZE emits its program counter and the byte there (R75). -/
theorem trace_of_readU8 {s : State} {op : Byte} (hr : s.run = .running) (h0 : readU8 s 0 = some op) :
    trace s = some (s.pc, op) := by
  have hf : fetchable s = true := (fetchable_iff s).mpr (lt_of_readU8 h0)
  simp [trace, hr, hf, h0]

/-- No trace pair is emitted except by a RUNNING machine below MEMSIZE (D15). -/
theorem trace_eq_none {s : State} (h : s.run = .running → s.mem.size ≤ s.pc.toNat) : trace s = none := by
  rw [Option.eq_none_iff_forall_ne_some]
  intro pair hp
  obtain ⟨hr, hlt⟩ := running_and_lt_of_trace hp
  exact absurd (h hr) (Nat.not_le.mpr hlt)

/-- Settles O45, by whether the iteration reaches the fetch. -/
theorem traceIsPcAndOpcode : Obligations.TraceIsPcAndOpcode := by
  intro s
  refine ⟨fun hr hlt => ?_, fun hge => trace_eq_none fun _ => hge, fun c hc => trace_eq_none fun hr => ?_⟩
  · obtain ⟨op, h0⟩ := exists_readU8_of_lt (s := s) (off := 0) hlt
    exact ⟨op, h0, trace_of_readU8 hr h0⟩
  · rw [hc] at hr
    cases hr

/-- Settles O21: the guard's halt, at creation too, and no 32-bit program counter reaches 2^32. -/
theorem guardHaltsOutsideMemory : Obligations.GuardHaltsOutsideMemory := by
  refine ⟨fun s hr hge => ⟨step_of_size_le_pc hr hge, trace_eq_none fun _ => hge⟩,
    fun p hp => step_of_size_le_pc (create_run p) ((Memory.loaded_size p).trans_le hp), fun s hsize => ?_⟩
  rw [fetchable_iff, hsize]
  exact s.pc.isLt

end Sys2Proof.Machine
end

section
/-! PROOFS. MOV (spec/41_move_immediate.md): what a completed MOV leaves, what a cut-off instruction leaves, and
both as one step from memory. -/

namespace Sys2Proof.Machine

/-! ## What a completed MOV leaves -/

/-- MOV whose five bytes lie in memory has its whole effect (R80). -/
theorem exec_mov_of_le {s : State} (r : Reg) (imm : Word) (hin : s.pc.toNat + 5 ≤ s.mem.size) :
    exec (.mov r imm) s = .next (setPc (writeReg s r imm) (pcAfter s 5)) := by
  rw [exec_mov, withOperands_of_le _ hin]

/-- The effect of MOV on registers and program counter (R80, R83); memory and run state are the old ones by
definition. -/
theorem movEffect_regs_pc (s : State) (r : Reg) (imm : Word) :
    readReg (setPc (writeReg s r imm) (pcAfter s 5)) r = imm ∧
      (∀ r', r' ≠ r → readReg (setPc (writeReg s r imm) (pcAfter s 5)) r' = readReg s r') ∧
      (setPc (writeReg s r imm) (pcAfter s 5)).pc = s.pc + 5#32 := by
  refine ⟨?_, fun r' hne => ?_, pcAfter_eq_add s 5⟩
  · rw [readReg_setPc, readReg_writeReg_same]
  · rw [readReg_setPc, readReg_writeReg_other s r r' imm hne]

/-- Settles O12: with its bytes in memory MOV has its whole effect, which no memory byte is part of. -/
theorem movCompletes : Obligations.MovCompletes := by
  intro r imm s hin
  obtain ⟨hdest, hothers, hpc⟩ := movEffect_regs_pc s r imm
  exact ⟨_, exec_mov_of_le r imm hin, hdest, hothers, hpc, rfl, fun _ => rfl, rfl⟩

/-! ## What a cut-off instruction leaves -/

/-- Settles O15: both instructions go through the handler contract, whose raise changes `run` alone. -/
theorem cutOffInstructionsHalt : Obligations.CutOffInstructionsHalt := by
  refine ⟨fun r imm s hcut => ?_, fun d s hcut => ?_⟩
  · rw [exec_mov, withOperands_of_gt _ hcut]
    rfl
  · rw [exec_jmp, withOperands_of_gt _ hcut]
    rfl

/-- An instruction cut off by the end of memory raises OutOfBounds as one step, whichever handler its opcode
has (R81, R89). -/
theorem step_of_cut_off {s : State} {op : Byte} (hr : s.run = .running) (h0 : readU8 s 0 = some op)
    (hcut : s.mem.size < s.pc.toNat + handlerLength (lookupHandler op)) :
    step s = .next (raiseOutOfBounds s) := by
  have hx : ¬ executesInstruction s = true := fun hx =>
    absurd ((executesInstruction_iff_of_readU8 hr h0).mp hx).2 (Nat.not_le.mpr hcut)
  obtain ⟨t, h⟩ := exists_step_of_running hr
  obtain ⟨-, ⟨-, rfl⟩ | ⟨op', -, -, rfl⟩ | ⟨op', h0', hop, -⟩ | ⟨op', imm, h0', hop, hin, -⟩ |
    ⟨op', d, h0', hop, -, hin, -⟩⟩ := step_next_cases h
  · exact h
  · exact h
  · obtain rfl : op = op' := Option.some.inj (h0.symm.trans h0')
    rw [hop] at hcut
    exact absurd (lt_of_readU8 h0) (Nat.not_lt.mpr (Nat.le_of_lt_succ hcut))
  · exact absurd (executesInstruction_of_mov hr h0' hop hin) hx
  · exact absurd (executesInstruction_of_jmp hr h0' hop hin) hx

/-! ## MOV as one step -/

/-- `step_of_mov` with the immediate that the decoder reads (R80). -/
theorem step_of_mov_of_readU32 {s : State} {op : Byte} {imm : Word} (hr : s.run = .running)
    (h0 : readU8 s 0 = some op) (hop : lookupHandler op = .mov) (himm : readU32 s 1 = some imm)
    (hin : s.pc.toNat + 5 ≤ s.mem.size) :
    step s = .next (sentinelCheck (setPc (writeReg s (regOfOpcode op) imm) (pcAfter s 5))) :=
  step_of_fetch_of_exec hr (decodeFrom_of_mov h0 hop himm) (exec_mov_of_le _ imm hin)

/-- Settles O18: the immediate is the word that the four bytes assemble to, the sentinel check changes `run`
alone, and a missing byte raises OutOfBounds. -/
theorem movStep : Obligations.MovStep := by
  intro s op hr h0 hlo hhi
  have hop : lookupHandler op = .mov :=
    (lookupHandler_eq_mov_iff_mem op).mpr (Finset.mem_Icc.mpr ⟨hlo, hhi⟩)
  refine ⟨fun hin => ?_, fun hcut => step_of_cut_off hr h0 (by rwa [hop])⟩
  obtain ⟨b0, b1, b2, b3, imm, hb0, hb1, hb2, hb3, himm, hval⟩ :=
    (wordReadIsLittleEndian.1 s 1).1 hin
  have hindex : regIndex (regOfOpcode op) = op.toNat - 0xB8 := by
    rw [regIndex_regOfOpcode, toNat_lowBits_of_range hlo hhi]
  have hs := step_of_mov_of_readU32 hr h0 hop himm hin
  obtain ⟨hdest, hothers, hpc⟩ := movEffect_regs_pc s (regOfOpcode op) imm
  refine ⟨b0, b1, b2, b3, regOfOpcode op, _, hb0, hb1, hb2, hb3, hindex, hs, ?_, fun r' hne => ?_, ?_, ?_,
    step_run_of_executes hs (executesInstruction_of_mov hr h0 hop hin)⟩
  · rw [readReg_sentinelCheck, hdest, hval]
  · rw [readReg_sentinelCheck, hothers r' hne]
  · rw [sentinelCheck_pc, hpc]
  · rw [sentinelCheck_mem, setPc_mem, writeReg_mem]

end Sys2Proof.Machine
end

section
/-! PROOFS. JMP (spec/42_short_jump.md): the absolute target as a number, what a completed JMP leaves, JMP as one
step from memory, and the jump to 0 that ends the run. -/

namespace Sys2Proof

/-! ## The signed displacement -/

theorem sext32_of_lt {b : Byte} (h : b.toNat < 128) : sext32 b = b.toNat := if_pos h

theorem sext32_of_ge {b : Byte} (h : 128 ≤ b.toNat) : sext32 b = b.toNat - 256 := if_neg (Nat.not_lt.mpr h)

/-- The displacements are the integers -128 to 127, each from one byte's two's complement (R54). -/
theorem exists_sext32_eq_iff (n : Int) : (∃ d, sext32 d = n) ↔ -128 ≤ n ∧ n < 128 := by
  simp only [sext32_eq_toInt]
  constructor
  · rintro ⟨d, rfl⟩
    exact ⟨d.le_toInt, d.toInt_lt⟩
  · rintro ⟨hlo, hhi⟩
    exact ⟨BitVec.ofInt 8 n, BitVec.toInt_ofInt_eq_self (by decide) hlo hhi⟩

end Sys2Proof

namespace Sys2Proof.Machine

/-! ## The target of a jump -/

/-- The target as a sum of 32-bit words (R85). -/
theorem jumpTarget_eq_signExtend_add (d : Byte) : jumpTarget d = d.signExtend 32 + 2#32 := by
  rw [jumpTarget, wrap32, sext32_eq_toInt, BitVec.ofInt_add]
  rfl

/-- The target as the residue of `disp + 2` modulo 2^32 (R86). -/
theorem toNat_jumpTarget (d : Byte) : (jumpTarget d).toNat = ((sext32 d + 2) % 2 ^ 32).toNat :=
  BitVec.toNat_ofInt _

/-- The target read as a signed word is `disp + 2` itself: the sum does not overflow 32 bits. -/
theorem toInt_jumpTarget (d : Byte) : (jumpTarget d).toInt = sext32 d + 2 := by
  obtain ⟨hlo, hhi⟩ := (exists_sext32_eq_iff _).mp ⟨d, rfl⟩
  exact BitVec.toInt_ofInt_eq_self (by decide) (by omega) (by omega)

/-- The words that are a jump's target, read as signed numbers: the displacements shifted by 2. -/
theorem exists_jumpTarget_eq_iff (v : Word) : (∃ d, jumpTarget d = v) ↔ -126 ≤ v.toInt ∧ v.toInt < 130 := by
  have hshift (d : Byte) : jumpTarget d = v ↔ sext32 d = v.toInt - 2 := by
    rw [← BitVec.toInt_inj, toInt_jumpTarget]
    omega
  simp only [hshift, exists_sext32_eq_iff]
  omega

/-- Settles O28: the displacement is the byte below 0x80 and 256 less from there on, and from 0xFE on the sum is
no longer negative. -/
theorem jumpTargetTable : Obligations.JumpTargetTable := by
  intro b
  rw [toNat_jumpTarget]
  refine ⟨fun hpos => ?_, fun hlo hhi => ?_, fun hlo => ?_⟩
  · rw [sext32_of_lt (by omega)]
    omega
  · rw [sext32_of_ge hlo]
    omega
  · rw [sext32_of_ge (by omega)]
    omega

/-- Settles O30: the targets are the words from -126 to 129 as signed numbers, and the negative ones are the
high range. -/
theorem jumpReachesExactly : Obligations.JumpReachesExactly := by
  intro v
  have hzero : v ≠ 0 ↔ v.toNat ≠ 0 := by rw [Ne, ← BitVec.toNat_inj]; rfl
  rw [exists_jumpTarget_eq_iff, hzero, BitVec.toInt_eq_toNat_cond]
  split <;> omega

/-! ## What a completed JMP leaves -/

/-- JMP whose two bytes lie in memory has its whole effect (R85). -/
theorem exec_jmp_of_le {s : State} (d : Byte) (hin : s.pc.toNat + 2 ≤ s.mem.size) :
    exec (.jmp d) s = .next (setPc s (jumpTarget d)) := by
  rw [exec_jmp, withOperands_of_le _ hin]

/-- Settles O13: with its bytes in memory JMP has its whole effect, which is a write of the program counter. -/
theorem jmpCompletes : Obligations.JmpCompletes := fun d s hin =>
  ⟨_, exec_jmp_of_le d hin, jumpTarget_eq_signExtend_add d, readReg_setPc s _, rfl, fun _ => rfl, rfl⟩

/-! ## JMP as one step -/

/-- The run state that a jump of a RUNNING machine leaves depends on its target alone (R87). -/
theorem run_sentinelCheck_setPc {s : State} (hr : s.run = .running) (v : Word) :
    (sentinelCheck (setPc s v)).run = if v = 0 then .halted .programEnd else .running :=
  sentinelCheck_run_of_running hr

/-- Settles O19: the step sets the program counter, the sentinel check changes `run` alone, and a missing
displacement byte raises OutOfBounds. -/
theorem jmpStep : Obligations.JmpStep := by
  intro s hr h0
  refine ⟨fun hin => ?_, fun hcut => step_of_cut_off hr h0 hcut⟩
  obtain ⟨d, hd⟩ : ∃ d, readU8 s 1 = some d := exists_readU8_of_lt hin
  have hpc : (sentinelCheck (setPc s (jumpTarget d))).pc = jumpTarget d := sentinelCheck_pc _
  refine ⟨d, _, hd, step_of_jmp hr h0 hd, hpc, fun r => ?_, ?_, ?_⟩
  · rw [readReg_sentinelCheck, readReg_setPc]
  · rw [sentinelCheck_mem, setPc_mem]
  · rw [run_sentinelCheck_setPc hr, hpc]

/-- Settles O29: both steps set the program counter to the target of the one displacement byte, and the run
state depends on that target alone. -/
theorem jumpIgnoresItsPosition : Obligations.JumpIgnoresItsPosition := by
  intro s s' d hr hr' h0 hd h0' hd'
  refine ⟨_, _, step_of_jmp hr h0 hd, step_of_jmp hr' h0' hd', ?_, ?_⟩
  · rw [sentinelCheck_pc, sentinelCheck_pc, setPc_pc, setPc_pc]
  · rw [run_sentinelCheck_setPc hr, run_sentinelCheck_setPc hr']

/-! ## The jump to 0 -/

/-- A run is empty or goes through the state that its first step answers. -/
theorem Reaches.eq_or_of_step {s t u : State} (hs : step s = .next t) (h : Reaches s u) :
    u = s ∨ Reaches t u := by
  induction h with
  | refl => exact .inl rfl
  | tail _ hlast ih =>
    obtain rfl | hreach := ih
    · rw [hs] at hlast
      cases hlast
      exact .inr (.refl t)
    · exact .inr (hreach.tail hlast)

/-- A run whose next step is its normal end is safe. -/
theorem safeFrom_of_step_normalEnd {s t : State} (hr : s.run = .running) (hs : step s = .next t)
    (ht : NormalEnd t) : SafeFrom s := by
  intro u h
  obtain rfl | hreach := h.eq_or_of_step hs
  · exact .inl hr
  · rw [hreach.eq_of_halted ht]
    exact .inr ht

/-- `EB FE` sets the program counter to 0 and halts with program_end (R87). -/
theorem step_of_jumpToZero {s : State} (hr : s.run = .running) (h0 : readU8 s 0 = some 0xEB#8)
    (hd : readU8 s 1 = some 0xFE#8) : step s = .next (halt .programEnd (setPc s 0)) := by
  have htarget : jumpTarget 0xFE#8 = 0 := (jumpTarget_eq_zero_iff _).mpr rfl
  rw [step_of_jmp hr h0 hd, htarget, sentinelCheck_eq_ite, if_pos ⟨hr, rfl⟩]

/-- Settles O32: the one step of the run is its normal end, and writes no register. -/
theorem jumpToZeroEndsNormally : Obligations.JumpToZeroEndsNormally := by
  intro s hr h0 hd
  have hs := step_of_jumpToZero hr h0 hd
  have hend : NormalEnd (halt .programEnd (setPc s 0)) := halt_run _ _
  refine ⟨safeFrom_of_step_normalEnd hr hs hend, _, (Reaches.refl s).tail hs, hend, rfl, fun r => ?_⟩
  rw [readReg_halt, readReg_setPc]

end Sys2Proof.Machine
end

section
/-! PROOFS. Halts and the diagnostic outputs (spec/60_exceptions.md): what a halting step leaves of the state,
and what the dump and the halt report say of it. -/

namespace Sys2Proof.Machine

/-! ## What a halt leaves -/

/-- An instruction of a RUNNING machine raises, with no other effect, or completes and leaves it RUNNING
(R70). -/
theorem exec_next_eq_halt_or_running {i : Instr} {s u : State} (hr : s.run = .running)
    (h : exec i s = .next u) : (∃ c, c ≠ .programEnd ∧ u = halt c s) ∨ u.run = .running := by
  obtain rfl | ⟨r, imm, -, rfl⟩ | ⟨d, -, rfl⟩ | ⟨op, -, rfl⟩ := exec_next_cases h
  · exact .inl ⟨.outOfBounds, nofun, rfl⟩
  · exact .inr hr
  · exact .inr hr
  · exact .inl ⟨.unimplementedOpcode op, nofun, rfl⟩

/-- A step raises, with no other effect, or is the sentinel check after the completed handler of the fetched
instruction (R66, R108). -/
theorem step_next_eq_halt_or_sentinelCheck {s t : State} (hr : s.run = .running) (h : step s = .next t) :
    (∃ c, c ≠ .programEnd ∧ t = halt c s) ∨
      ∃ i u, fetch s = .ok i ∧ exec i s = .next u ∧ u.run = .running ∧ t = sentinelCheck u := by
  cases hi : fetch s with
  | error e =>
    have hs : step s = .next (raiseOutOfBounds s) := by
      cases hf : fetchable s with
      | false => exact step_of_not_fetchable hr hf
      | true => exact step_of_fetch_error hr hf hi
    rw [hs] at h
    cases h
    exact .inl ⟨.outOfBounds, nofun, rfl⟩
  | ok i =>
    obtain ⟨u, hu⟩ := exists_exec_eq_next i s
    rw [step_of_fetch_of_exec hr hi hu] at h
    cases h
    obtain ⟨c, hc, rfl⟩ | hrun := exec_next_eq_halt_or_running hr hu
    · exact .inl ⟨c, hc, rfl⟩
    · exact .inr ⟨i, u, rfl, hu, hrun, rfl⟩

/-- Settles O23: a raise records its own reason, and the sentinel check records program_end or nothing. -/
theorem haltsAreSetRunOnly : Obligations.HaltsAreSetRunOnly := by
  intro s t c hr h hc
  obtain ⟨c', hne, rfl⟩ | ⟨i, u, hi, hu, hrun, rfl⟩ := step_next_eq_halt_or_sentinelCheck hr h
  · obtain rfl : c' = c := RunState.halted.inj hc
    exact ⟨fun _ => rfl, fun hend => absurd hend hne⟩
  · obtain ⟨-, -, hsc⟩ | ⟨-, -, hsc⟩ | ⟨c', hc', -⟩ := sentinelCheck_cases u
    · rw [hsc] at hc ⊢
      obtain rfl : .programEnd = c := RunState.halted.inj hc
      exact ⟨fun hne => absurd rfl hne, fun _ => ⟨i, u, hi, hu, hrun, rfl⟩⟩
    · rw [hsc, hrun] at hc
      cases hc
    · rw [hrun] at hc'
      cases hc'

/-! ## The diagnostic outputs -/

/-- The dump in full: the registers in the order of R11, then the program counter (R113). -/
theorem registerDump_eq (s : State) :
    registerDump s = [("EAX", readReg s .eax), ("ECX", readReg s .ecx), ("EDX", readReg s .edx),
      ("EBX", readReg s .ebx), ("ESP", readReg s .esp), ("EBP", readReg s .ebp),
      ("ESI", readReg s .esi), ("EDI", readReg s .edi), ("pc", s.pc)] := rfl

theorem haltReport_of_running {s : State} (hr : s.run = .running) : haltReport s = none := by
  rw [haltReport, hr]

theorem haltReport_of_halted {s : State} {c : HaltReason} (hc : s.run = .halted c) :
    haltReport s = some (c, s.pc) := by
  rw [haltReport, hc]

/-- Settles O47, by the dump's equation and the report's one for each run state. -/
theorem diagnosticsReportTheState : Obligations.DiagnosticsReportTheState := fun s =>
  ⟨registerDump_eq s, haltReport_of_running, fun _ => haltReport_of_halted⟩

end Sys2Proof.Machine
end

section
/-! PROOFS. Progress (spec/70_reset_and_hazards.md): a step answers a state from every RUNNING state. -/

namespace Sys2Proof.Machine

/-- Settles O35, by the run state: from RUNNING the step answers a state, so it neither faults nor is refused;
from HALTED it is the fault noTransition (log 1). -/
theorem runningAlwaysSteps : Obligations.RunningAlwaysSteps := by
  intro s
  cases hr : s.run with
  | running =>
    obtain ⟨t, hs⟩ := exists_step_of_running hr
    simp [hs]
  | halted c => simp [step_of_halted hr]

end Sys2Proof.Machine
end
